-- ==== Sys2Proof/Word.lean ====
section
/-! DEFINITION. The word types of the block (00_scope.md R11): a byte is 8 bits with bit 0 the least
significant, a bit or pin level is `0` or `1`. Everything is unsigned. -/

namespace Sys2Proof

/-- A byte as it travels on the wire, bit 0 the least significant (R11). -/
abbrev Byte := BitVec 8

/-- A bit, or the level of a pin: `false` is `0` (low), `true` is `1` (high) (R11). -/
abbrev Bit := Bool

end Sys2Proof
end

