-- ==== Sys2Proof/Config.lean ====
section
/-! DEFINITION. The parameters of one block (00_scope.md R6, R7) and the one free value (R83): the chip
variant descriptor, the constants, the configurations the spec has a model refuse
(93_implementation_defined.md U11, U13). -/

namespace Sys2Proof

/-- The variant descriptor of R6 together with the parameters of R7 that R7 has a model take as fields.
The variant is fixed when the block is built and never changes (R6). The number of slots `N_DEV` (R5) is the
length of the register list of the state and is not repeated here. -/
structure Config where
  /-- `ADDR_COUNT`: number of display addresses (R6). -/
  addrCount : Nat
  /-- `KEY_BYTES`: bytes clocked in by one key read (R6). -/
  keyBytes : Nat
  /-- `HAS_MODE`: whether the multiplex-mode operation exists (R6). -/
  hasMode : Bool
  /-- `T_SETTLE`, in microseconds (R7). -/
  tSettle : Nat := 1
  /-- `T_GUARD`, in microseconds (R7). -/
  tGuard : Nat := 2
  /-- `CMD_DATA_INC` (R7, R64). -/
  cmdDataInc : Byte := 0x40
  /-- `CMD_DATA_FIXED` (R7, R64). -/
  cmdDataFixed : Byte := 0x44
  /-- `CMD_DATA_READ` (R7, R64). -/
  cmdDataRead : Byte := 0x42
  /-- `DISP_ON_BIT` (R7, R65). -/
  dispOnBit : Byte := 0x08
  /-- `PULLUP_BUS` (R7): electrical only, no rule reads it (92_eei_decisions.md D22). -/
  pullupBus : Bool := false
  /-- `PULLUP_STB[d]` (R7), slot 0 first: electrical only, no rule reads it (D22). -/
  pullupStb : List Bool := []
  deriving DecidableEq, Repr

/-- `PW_DEFAULT` (R7): the pulse width on attach. -/
def Config.pwDefault : BitVec 3 := 4

/-- `CLASS_MODE`: command class, bits 7:6 = 00 (R7, R61). -/
def Config.classMode : Byte := 0x00

/-- `CLASS_DATA`: command class, bits 7:6 = 01 (R7, R61). -/
def Config.classData : Byte := 0x40

/-- `CLASS_DISP`: command class, bits 7:6 = 10 (R7, R61). -/
def Config.classDisp : Byte := 0x80

/-- `CLASS_ADDR`: command class, bits 7:6 = 11 (R7, R61). -/
def Config.classAddr : Byte := 0xC0

/-- The TM1638 column of R6: the part in scope, with the defaults of R7. -/
def Config.tm1638 : Config := { addrCount := 16, keyBytes := 4, hasMode := false }

/-- The TM1668 column of R6, whose `ADDR_COUNT` is open: 16 or 14. -/
def Config.tm1668 (addrCount : Nat) : Config := { addrCount := addrCount, keyBytes := 5, hasMode := true }

/-- The variant is one of the columns of R6; a model refuses any other `ADDR_COUNT` (U11). -/
def Config.variantOk (c : Config) : Bool :=
  if c.hasMode then c.keyBytes == 5 && (c.addrCount == 16 || c.addrCount == 14)
  else c.keyBytes == 4 && c.addrCount == 16

/-- The command-byte parameters a model accepts (R107, U13): the three data instructions are of class 01 and
pairwise distinct, and the display-on bit is a single bit of the low nibble outside bits 2:0. -/
def Config.bytesOk (c : Config) : Bool :=
  c.cmdDataInc.extractLsb' 6 2 == 1 && c.cmdDataFixed.extractLsb' 6 2 == 1 &&
  c.cmdDataRead.extractLsb' 6 2 == 1 &&
  c.cmdDataInc != c.cmdDataFixed && c.cmdDataInc != c.cmdDataRead && c.cmdDataFixed != c.cmdDataRead &&
  c.dispOnBit == 0x08

/-- A configuration the model accepts (U11, U13). -/
def Config.wf (c : Config) : Bool := c.variantOk && c.bytesOk

/-- The free value of the model: the answer of the environment to the sample of DIO with this running number,
where the state lists no answer for it. It is an oracle under no law (R8, R83), so it has no body. -/
opaque Config.freeSample : Nat → Bit

end Sys2Proof
end

