-- ==== Sys2Proof/Syntax.lean ====
section
/-! DEFINITION. The instructions of the block: one constructor per row of spec/opcode_table.json, that is the six
wire command bytes of 41_command_encoder.md and the eight host operations of 42_device_ops.md (R13, R71); the
request in which an instruction is presented (R71); the names by which a request is rejected. -/

namespace Sys2Proof

/-- A command byte by its meaning (R100 to R105), without the frame it travels in. -/
inductive Command where
  /-- `MODE(m)` (R100). -/
  | mode (m : BitVec 2)
  /-- `DATA_INC` (R101). -/
  | dataInc
  /-- `DATA_FIXED` (R102). -/
  | dataFixed
  /-- `DATA_READ` (R103). -/
  | dataRead
  /-- `ADDR(a)` (R104). -/
  | addr (a : BitVec 4)
  /-- `DISP(don, pw)` (R105). -/
  | disp (don : Bool) (pw : BitVec 3)
  deriving DecidableEq, Repr

/-- What a reader of traces reports of the first byte of a frame (R67, R70): the command it stands for, or
`UNKNOWN(c)`. -/
inductive Verdict where
  | command (k : Command)
  | unknown (c : Byte)
  deriving DecidableEq, Repr

/-- The instructions. The first six are the wire commands, each with the slot whose frame carries it and, for the
address command, the payload of its write frame (R68); the last eight are the host operations with the operands
of R71 and R72. A slot `d` is a natural number (R72). -/
inductive Instr where
  /-- `MODE(m)` in a command frame on slot `d` (R100). -/
  | mode (d : Nat) (m : BitVec 2)
  /-- `DATA_INC` in a command frame on slot `d` (R101). -/
  | dataInc (d : Nat)
  /-- `DATA_FIXED` in a command frame on slot `d` (R102). -/
  | dataFixed (d : Nat)
  /-- `DATA_READ` as the command byte of a read frame on slot `d` (R103). -/
  | dataRead (d : Nat)
  /-- `ADDR(a)` as the command byte of a write frame on slot `d` (R104). -/
  | addr (d : Nat) (a : BitVec 4) (payload : List Byte)
  /-- `DISP(don, pw)` in a command frame on slot `d` (R105). -/
  | disp (d : Nat) (don : Bool) (pw : BitVec 3)
  /-- `ATTACH d` (R121). -/
  | attach (d : Nat)
  /-- `RESET d` (R122). -/
  | reset (d : Nat)
  /-- `DISPLAY_AUTO d, a, bytes` (R123). -/
  | displayAuto (d : Nat) (a : Byte) (bytes : List Byte)
  /-- `DISPLAY_FIXED d, a, b` (R124). -/
  | displayFixed (d : Nat) (a : Byte) (b : Byte)
  /-- `READ_KEY d` (R125). -/
  | readKey (d : Nat)
  /-- `SET_PULSE d, w` (R126). -/
  | setPulse (d : Nat) (w : Byte)
  /-- `SET_DISPLAY d, on` (R127). -/
  | setDisplay (d : Nat) (on : Bool)
  /-- `SET_MODE d, m` (R128). -/
  | setMode (d : Nat) (m : BitVec 2)
  deriving DecidableEq, Repr

/-- The pseudo-operation `DISPLAY_ON d` (R75). -/
abbrev Instr.displayOn (d : Nat) : Instr := .setDisplay d true

/-- The pseudo-operation `DISPLAY_OFF d` (R75). -/
abbrev Instr.displayOff (d : Nat) : Instr := .setDisplay d false

/-- The slot an instruction names. -/
def Instr.slot : Instr → Nat
  | .mode d _ => d
  | .dataInc d => d
  | .dataFixed d => d
  | .dataRead d => d
  | .addr d _ _ => d
  | .disp d _ _ => d
  | .attach d => d
  | .reset d => d
  | .displayAuto d _ _ => d
  | .displayFixed d _ _ => d
  | .readKey d => d
  | .setPulse d _ => d
  | .setDisplay d _ => d
  | .setMode d _ => d

/-- The command of a wire-command instruction; none for a host operation (R60: the two levels of encoding). -/
def Instr.command : Instr → Option Command
  | .mode _ m => some (.mode m)
  | .dataInc _ => some .dataInc
  | .dataFixed _ => some .dataFixed
  | .dataRead _ => some .dataRead
  | .addr _ a _ => some (.addr a)
  | .disp _ don pw => some (.disp don pw)
  | .attach _ => none
  | .reset _ => none
  | .displayAuto _ _ _ => none
  | .displayFixed _ _ _ => none
  | .readKey _ => none
  | .setPulse _ _ => none
  | .setDisplay _ _ => none
  | .setMode _ _ => none

/-- The 3-bit code of a host operation (R71); none for a wire command. -/
def Instr.code : Instr → Option (BitVec 3)
  | .mode _ _ => none
  | .dataInc _ => none
  | .dataFixed _ => none
  | .dataRead _ => none
  | .addr _ _ _ => none
  | .disp _ _ _ => none
  | .attach _ => some 0
  | .reset _ => some 1
  | .displayAuto _ _ _ => some 2
  | .displayFixed _ _ _ => some 3
  | .readKey _ => some 4
  | .setPulse _ _ => some 5
  | .setDisplay _ _ => some 6
  | .setMode _ _ => some 7

/-- Whether the instruction is one of the eight operations a host issues (R8, R71). -/
def Instr.isHostOp (i : Instr) : Bool := i.code.isSome

/-- How an instruction is presented to the block (R60, R71): a host operation as its 3-bit code, a slot and
operand bytes; a wire command as the slot, its command byte and its payload. The byte form of the operands is
the model's own (notes/assumptions/3.md). -/
inductive Request where
  | host (code : BitVec 3) (slot : Nat) (operands : List Byte)
  | wire (slot : Nat) (command : Byte) (payload : List Byte)
  deriving DecidableEq, Repr

/-- The slot a request names. -/
def Request.slot : Request → Nat
  | .host _ d _ => d
  | .wire d _ _ => d

/-- The names by which a request that stands for no instruction is rejected. -/
inductive DecodeError where
  /-- The command byte is the encoding of no command: `Dec` of R108 answers `UNKNOWN(c)`. -/
  | unknownCommand (c : Byte)
  /-- A command byte that takes no payload came with one (R68). -/
  | unexpectedPayload (c : Byte)
  /-- A host operation with the wrong number of operand bytes (R71). -/
  | operandCount (code : BitVec 3)
  /-- A Boolean or a 2-bit operand outside its type (R72). -/
  | operandRange (code : BitVec 3)
  deriving DecidableEq, Repr

end Sys2Proof
end

