-- ==== Sys2Proof/Decode.lean ====
section
/-! DEFINITION. The bits of a byte in wire order (R43, R44), the command encoder (41_command_encoder.md R100 to
R105) and its inverse `Dec` (R108), the verdict of a reader of traces (R67), the decoder of requests, total and rejecting by name, and the encoder of
instructions (30_encoding.md R71, R72). -/

namespace Sys2Proof

/-- The eight bits of a byte, least significant first: the order in which they are on the wire (R43). -/
def byteBits (v : Byte) : List Bit :=
  [v.getLsbD 0, v.getLsbD 1, v.getLsbD 2, v.getLsbD 3, v.getLsbD 4, v.getLsbD 5, v.getLsbD 6, v.getLsbD 7]

/-- The sum of `b_i << i` over a list of bits, element 0 the least significant (R70, R85). -/
def bitsValue : List Bit → Nat
  | [] => 0
  | b :: bs => b.toNat + 2 * bitsValue bs

/-- The byte assembled from bits, the first of them bit 0 (R44, R85). -/
def byteOfBits (bs : List Bit) : Byte := BitVec.ofNat 8 (bitsValue bs)

/-- `b2n(t)` as a byte: 1 for true and 0 for false (R11). -/
def b2n (t : Bool) : Byte := if t then 1 else 0

/-- `Enc_MODE(m) = CLASS_MODE | m` (R100). -/
def encMode (m : BitVec 2) : Byte := Config.classMode ||| m.zeroExtend 8

/-- `Enc_DATA_INC = CMD_DATA_INC` (R101). -/
def encDataInc (cfg : Config) : Byte := cfg.cmdDataInc

/-- `Enc_DATA_FIXED = CMD_DATA_FIXED` (R102). -/
def encDataFixed (cfg : Config) : Byte := cfg.cmdDataFixed

/-- `Enc_DATA_READ = CMD_DATA_READ` (R103): a constant, it does not carry the address mode. -/
def encDataRead (cfg : Config) : Byte := cfg.cmdDataRead

/-- `Enc_ADDR(a) = CLASS_ADDR | a`, with no masking of `a` (R104, R72). -/
def encAddr (a : Byte) : Byte := Config.classAddr ||| a

/-- `Enc_DISP(don, pw) = CLASS_DISP | (b2n(don) * DISP_ON_BIT) | pw` (R105). -/
def encDisp (cfg : Config) (don : Bool) (pw : BitVec 3) : Byte :=
  Config.classDisp ||| b2n don * cfg.dispOnBit ||| pw.zeroExtend 8

/-- The command encoder as one function of the command (R100 to R105). -/
def encodeCommand (cfg : Config) : Command → Byte
  | .mode m => encMode m
  | .dataInc => encDataInc cfg
  | .dataFixed => encDataFixed cfg
  | .dataRead => encDataRead cfg
  | .addr a => encAddr (a.zeroExtend 8)
  | .disp don pw => encDisp cfg don pw

/-- `Dec(c)` of R108, in the order of its tests; `none` is its verdict `UNKNOWN(c)`. It does not look at the variant:
what a reader of traces says of a byte the variant never emits is `traceVerdict` (notes/assumptions/20.md). -/
def decodeCommand (cfg : Config) (c : Byte) : Option Command :=
  if c &&& 0xFC = 0x00 then some (.mode (c.extractLsb' 0 2))
  else if c = cfg.cmdDataInc then some .dataInc
  else if c = cfg.cmdDataFixed then some .dataFixed
  else if c = cfg.cmdDataRead then some .dataRead
  else if c &&& 0xF0 = 0x80 then some (.disp (c.getLsbD 3) (c.extractLsb' 0 3))
  else if c &&& 0xF0 = 0xC0 then some (.addr (c.extractLsb' 0 4))
  else none

/-- Whether the block of this variant emits a command at all (R62): MODE only when `HAS_MODE`, ADDR only within the
address space. -/
def commandEmitted (cfg : Config) : Command → Bool
  | .mode _ => cfg.hasMode
  | .dataInc => true
  | .dataFixed => true
  | .dataRead => true
  | .addr a => decide (a.toNat < cfg.addrCount)
  | .disp _ _ => true

/-- What a reader of traces reports of a first byte (R67, R70; D21, U14): the command of `Dec`, and `UNKNOWN(c)` for
every byte outside the emitted set of this variant. -/
def traceVerdict (cfg : Config) (c : Byte) : Verdict :=
  match decodeCommand cfg c with
  | some k => if commandEmitted cfg k then .command k else .unknown c
  | none => .unknown c

/-- The operand byte of a Boolean: 0 is off, 1 is on, anything else is outside the type (R72). -/
def decodeBool (b : Byte) : Option Bool :=
  if b = 0 then some false else if b = 1 then some true else none

/-- The operand byte of a 2-bit mode: a value above 3 is outside the type (R72). -/
def decodeMode (b : Byte) : Option (BitVec 2) :=
  if b &&& 0xFC = 0 then some (b.extractLsb' 0 2) else none

/-- The operand bytes of a host operation, by its code (R71, R72). -/
def decodeHost (code : BitVec 3) (d : Nat) (operands : List Byte) : Except DecodeError Instr :=
  match code.toNat, operands with
  | 0, [] => .ok (.attach d)
  | 1, [] => .ok (.reset d)
  | 2, a :: bytes => .ok (.displayAuto d a bytes)
  | 3, [a, b] => .ok (.displayFixed d a b)
  | 4, [] => .ok (.readKey d)
  | 5, [w] => .ok (.setPulse d w)
  | 6, [b] =>
    match decodeBool b with
    | some on => .ok (.setDisplay d on)
    | none => .error (.operandRange code)
  | 7, [b] =>
    match decodeMode b with
    | some m => .ok (.setMode d m)
    | none => .error (.operandRange code)
  | _, _ => .error (.operandCount code)

/-- A command that takes no payload, which must then be empty (R68). -/
def noPayload (c : Byte) (payload : List Byte) (i : Instr) : Except DecodeError Instr :=
  if payload = [] then .ok i else .error (.unexpectedPayload c)

/-- A frame's command byte and payload as the wire command they stand for (R68, R108). A command the variant does not
have and a payload out of range are instructions too: running them answers `InvalidArgument` (R151). -/
def decodeWire (cfg : Config) (d : Nat) (c : Byte) (payload : List Byte) : Except DecodeError Instr :=
  match decodeCommand cfg c with
  | some (.mode m) => noPayload c payload (.mode d m)
  | some .dataInc => noPayload c payload (.dataInc d)
  | some .dataFixed => noPayload c payload (.dataFixed d)
  | some .dataRead => noPayload c payload (.dataRead d)
  | some (.disp don pw) => noPayload c payload (.disp d don pw)
  | some (.addr a) => .ok (.addr d a payload)
  | none => .error (.unknownCommand c)

/-- The instruction a request stands for, or the name of what is wrong with it. -/
def decode (cfg : Config) : Request → Except DecodeError Instr
  | .host code d operands => decodeHost code d operands
  | .wire d c payload => decodeWire cfg d c payload

/-- The request that carries an instruction (R71, R72; R100 to R105). -/
def encode (cfg : Config) : Instr → Request
  | .mode d m => .wire d (encodeCommand cfg (.mode m)) []
  | .dataInc d => .wire d (encodeCommand cfg .dataInc) []
  | .dataFixed d => .wire d (encodeCommand cfg .dataFixed) []
  | .dataRead d => .wire d (encodeCommand cfg .dataRead) []
  | .addr d a payload => .wire d (encodeCommand cfg (.addr a)) payload
  | .disp d don pw => .wire d (encodeCommand cfg (.disp don pw)) []
  | .attach d => .host 0 d []
  | .reset d => .host 1 d []
  | .displayAuto d a bytes => .host 2 d (a :: bytes)
  | .displayFixed d a b => .host 3 d [a, b]
  | .readKey d => .host 4 d []
  | .setPulse d w => .host 5 d [w]
  | .setDisplay d on => .host 6 d [b2n on]
  | .setMode d m => .host 7 d [m.zeroExtend 8]

/-- How many operand bytes a host operation needs at least (R71). -/
def operandBytes (code : BitVec 3) : Nat :=
  match code.toNat with
  | 2 => 1
  | 3 => 2
  | 5 => 1
  | 6 => 1
  | 7 => 1
  | _ => 0

/-- Byte `k` of a word numbered as the opcode table numbers it. -/
def tableByte (w k : Nat) : Byte := BitVec.ofNat 8 (w / 256 ^ k)

/-- The request a word of the opcode table stands for: the first byte is the command byte or the operation code,
the next the slot, the rest the operands. The two levels of the table share the first-byte values 0 to 7, which
are read as operation codes (notes/assumptions/4.md). -/
def tableRequest (_nbits w : Nat) : Request :=
  let first := tableByte w 0
  if first.toNat < 8 then
    let code : BitVec 3 := first.extractLsb' 0 3
    .host code (tableByte w 1).toNat ((List.range (operandBytes code)).map fun k => tableByte w (k + 2))
  else .wire (tableByte w 1).toNat first []

/-- The instruction the decoder reads from a word of the opcode table, on the part in scope (R1, R6). -/
def decodeTableWord (nbits w : Nat) : Option Instr :=
  match decode Config.tm1638 (tableRequest nbits w) with
  | .ok i => some i
  | .error _ => none

end Sys2Proof
end

