-- ==== Sys2Proof/Machine/State.lean ====
section
/-! DEFINITION. The state of one block (10_state.md R20 to R30), the wire events (R80), the results an operation
returns (R150), the outcomes of a step that are no next state, and reset (R170). -/

namespace Sys2Proof.Machine

/-- The address mode a shadow register records (R21); `Increment` is 0 and `Fixed` is 1 (D27). -/
inductive AddressMode where
  | increment
  | fixed
  deriving DecidableEq, Repr

/-- The three shadow registers of one slot (R21, R22, R23). -/
structure Dev where
  /-- `dev[d].am` (R21). -/
  am : AddressMode
  /-- `dev[d].don` (R22). -/
  don : Bool
  /-- `dev[d].pw` (R23). -/
  pw : BitVec 3
  deriving DecidableEq, Repr

/-- The shadow registers of a slot after reset and after ATTACH (R21, R22, R23, R121). -/
def Dev.initial : Dev := { am := .increment, don := false, pw := Config.pwDefault }

/-- The output latches (R24, R25, R26). -/
structure Pins where
  /-- `clk` (R24). -/
  clk : Bit
  /-- `dio` (R25): `false` pulls the line low, `true` releases it. -/
  dio : Bit
  /-- `stb[d]`, slot 0 first (R26): `false` selects the chip. -/
  stb : List Bit
  deriving DecidableEq, Repr

/-- The latches after reset of a block with `n` slots (R170). -/
def Pins.initial (n : Nat) : Pins := { clk := true, dio := true, stb := List.replicate n true }

/-- The event alphabet of the trace (R80). -/
inductive Event where
  | stb (d : Nat) (v : Bit)
  | clk (v : Bit)
  | dio (v : Bit)
  | delay (n : Nat)
  | sample (b : Bit)
  deriving DecidableEq, Repr

/-- The error kinds of the document's taxonomy (R150); the block returns only the first (R151, R152). -/
inductive ErrorKind where
  | invalidArgument
  | outOfMemory
  | peripheralConfigError
  deriving DecidableEq, Repr

/-- What an operation returns to the host (R12, R71, R153). -/
inductive Result where
  | ok
  | okBytes (bytes : List Byte)
  | error (kind : ErrorKind)
  deriving DecidableEq, Repr

/-- The reasons for which a step can stop with a fault. -/
inductive Fault where
  /-- Raised by every operation presented while another is in progress (R30, R120): the spec gives that case no
  step (D3, U8: stuck). Safe: the model stops where real hardware might go on; no reachable state is busy. -/
  | operationWhileBusy
  deriving DecidableEq, Repr

/-- The reasons for which a step can be refused. -/
inductive Refusal where
  /-- An instruction that has no meaning in the model, by its mnemonic; raised by no arm. Safe. -/
  | notModelled (mnemonic : String)
  /-- Raised by the fetch of a request that stands for no instruction (R67, R72): the typed host port cannot
  present it. Safe: nothing is claimed about it. -/
  | undecodable (e : DecodeError)
  /-- Raised by the fetch in a block whose parameters a model has to refuse (U11, U12, U13). Safe. -/
  | badConfiguration
  deriving DecidableEq, Repr

/-- One block with its input and output (R20, R32). Only plain data. -/
structure State where
  /-- The parameters of this block (R6, R7); no step changes them. -/
  cfg : Config
  /-- The shadow registers, slot 0 first (R20); the length of the list is `N_DEV` (R5). -/
  devs : List Dev
  /-- The output latches (R24, R25, R26). -/
  pins : Pins
  /-- `busy` (R30). -/
  busy : Bool
  /-- The sequencer position, none while no operation is in progress (R29). -/
  seqPos : Option Nat
  /-- The wire trace since reset, oldest event first (R9); the block never reads it (R32). -/
  trace : List Event
  /-- The results returned to the host, oldest first (R9); the block never reads them (R34). -/
  results : List Result
  /-- The requests the host presents, in its order (R8, R53). The model's own field: the host port. -/
  port : List Request
  /-- The environment's answers to the next samples of DIO, as far as they are given (R8, R83). The model's own
  field: the input of the step. -/
  answers : List Bit
  /-- How many samples have been taken: the argument of the free value `Config.freeSample` (R83). The model's own
  field. -/
  samples : Nat
  deriving DecidableEq, Repr

/-- `N_DEV` (R5): the number of slots. -/
abbrev State.nDev (s : State) : Nat := s.devs.length

/-- A block with parameters `cfg` and `n` slots right after reset (R170): no event, nothing presented, and
nothing said of the environment's answers. -/
def State.powerOn (cfg : Config) (n : Nat) : State where
  cfg := cfg
  devs := List.replicate n Dev.initial
  pins := Pins.initial n
  busy := false
  seqPos := none
  trace := []
  results := []
  port := []
  answers := []
  samples := 0

/-- The machine right after reset: the TM1638 with one slot (R6, R75, R170; notes/assumptions/1.md). -/
def State.reset : State := State.powerOn Config.tm1638 1

/-- What the host port offers the sequencer. -/
inductive Fetched where
  /-- Nothing is presented: the block is idle (R165). -/
  | idle
  /-- An instruction, and the state with its request taken off the port. -/
  | instr (i : Instr) (s : State)
  | refused (r : Refusal)
  deriving DecidableEq, Repr

end Sys2Proof.Machine
end

