-- ==== Sys2Proof/Machine/Ops.lean ====
section
/-! DEFINITION. The shared operations of the block: the pin primitives, `Delay` and `SampleDIO` (R80 to R83), the
byte serialiser and deserialiser (R84, R85), the three frame shapes (R86 to R88), the shadow registers, and how
an operation runs, returns and fails (R120, R154); the fetch of a request from the host port. -/

namespace Sys2Proof.Machine

/-- The effect of one event on the output latches (R81): pin writes set their latch, the others nothing. -/
def applyEvent (p : Pins) : Event → Pins
  | .stb d v => { p with stb := p.stb.set d v }
  | .clk v => { p with clk := v }
  | .dio v => { p with dio := v }
  | .delay _ => p
  | .sample _ => p

/-- Perform one event: its effect on the latches, one entry of the trace (R80), and the sequencer position
advanced by one (R29). -/
def emit (e : Event) (s : State) : State :=
  { s with pins := applyEvent s.pins e, trace := s.trace ++ [e], seqPos := s.seqPos.map (· + 1) }

/-- `SetSTB(d, v)` (R81). -/
def setSTB (d : Nat) (v : Bit) (s : State) : State := emit (.stb d v) s

/-- `SetCLK(v)` (R81). -/
def setCLK (v : Bit) (s : State) : State := emit (.clk v) s

/-- `SetDIO(v)` (R81). -/
def setDIO (v : Bit) (s : State) : State := emit (.dio v) s

/-- `Delay(n)` (R82). -/
def delay (n : Nat) (s : State) : State := emit (.delay n) s

/-- The level the environment answers to the next sample of DIO: the next listed answer, and where none is listed
the free value of this sample (R83; notes/assumptions/2.md). -/
def nextAnswer (s : State) : Bit := s.answers.headD (Config.freeSample s.samples)

/-- `b <- SampleDIO()` (R83): one event that records the answer; no state of the block changes. -/
def sampleDIO (s : State) : Bit × State :=
  let b := nextAnswer s
  (b, emit (.sample b) { s with answers := s.answers.tail, samples := s.samples + 1 })

/-- The clock pulse of R84: high, settle, low, settle. -/
def pulse (s : State) : State :=
  s |> setCLK true |> delay s.cfg.tSettle |> setCLK false |> delay s.cfg.tSettle

/-- One turn of the loop of `SendByte` (R84). -/
def sendBit (v : Bit) (s : State) : State := s |> setDIO v |> pulse

/-- The loop of `SendByte` over a list of bits. -/
def sendBits : List Bit → State → State
  | [], s => s
  | b :: bs, s => sendBits bs (sendBit b s)

/-- `SendByte(v)` (R84): bit 0 first. -/
def sendByte (v : Byte) (s : State) : State := sendBits (byteBits v) s

/-- `SendByte` of every byte of a list in order (R45, R87). -/
def sendBytes : List Byte → State → State
  | [], s => s
  | v :: vs, s => sendBytes vs (sendByte v s)

/-- One turn of the loop of `ReadByte` (R85): the sample comes before the pulse. -/
def readBit (s : State) : Bit × State :=
  let r := sampleDIO s
  (r.1, pulse r.2)

/-- `n` turns of the loop of `ReadByte`, and the bits in the order they were sampled. -/
def readBits : Nat → State → List Bit × State
  | 0, s => ([], s)
  | n + 1, s =>
    let r := readBit s
    let rs := readBits n r.2
    (r.1 :: rs.1, rs.2)

/-- `r <- ReadByte()` (R85): the first sample is bit 0 (R44). -/
def readByte (s : State) : Byte × State :=
  let r := readBits 8 s
  (byteOfBits r.1, r.2)

/-- `n` bytes read one after another, in the order they were clocked in (R42, R88). -/
def readBytes : Nat → State → List Byte × State
  | 0, s => ([], s)
  | n + 1, s =>
    let r := readByte s
    let rs := readBytes n r.2
    (r.1 :: rs.1, rs.2)

/-- `CmdFrame(d, c)` (R86). -/
def cmdFrame (d : Nat) (c : Byte) (s : State) : State :=
  s |> setSTB d false |> sendByte c |> setSTB d true

/-- `WriteFrame(d, c, p)` (R87). -/
def writeFrame (d : Nat) (c : Byte) (p : List Byte) (s : State) : State :=
  s |> setSTB d false |> sendByte c |> sendBytes p |> setSTB d true

/-- `bytes <- ReadFrame(d, c, n)` (R88): the command, the release of DIO and the guard delay, then `n` bytes. -/
def readFrame (d : Nat) (c : Byte) (n : Nat) (s : State) : List Byte × State :=
  let r := readBytes n (s |> setSTB d false |> sendByte c |> setDIO true |> delay s.cfg.tGuard)
  (r.1, setSTB d true r.2)

/-- The shadow registers of slot `d` (R12). Operations read only slots they have checked. -/
def readDev (d : Nat) (s : State) : Dev := s.devs.getD d Dev.initial

/-- Write the shadow registers of slot `d` (R12). -/
def writeDev (d : Nat) (v : Dev) (s : State) : State := { s with devs := s.devs.set d v }

/-- `dev[d].am <- m` (R21). -/
def writeAm (d : Nat) (m : AddressMode) (s : State) : State := writeDev d { readDev d s with am := m } s

/-- `dev[d].don <- on` (R22). -/
def writeDon (d : Nat) (on : Bool) (s : State) : State := writeDev d { readDev d s with don := on } s

/-- `dev[d].pw <- w` (R23). -/
def writePw (d : Nat) (w : BitVec 3) (s : State) : State := writeDev d { readDev d s with pw := w } s

/-- `stb[d] <- 1` by pin configuration, which is no event (R121). -/
def configureSTB (d : Nat) (s : State) : State := { s with pins := { s.pins with stb := s.pins.stb.set d true } }

/-- `DC(d)`: the display-control byte of slot `d` from its current shadow registers (R106). -/
def displayControl (d : Nat) (s : State) : Byte := encDisp s.cfg (readDev d s).don (readDev d s).pw

/-- The data instruction that sets an address mode (R101, R102). -/
def modeByte (cfg : Config) : AddressMode → Byte
  | .increment => encDataInc cfg
  | .fixed => encDataFixed cfg

/-- The mode-setting frame of R123 and R124, sent only when the shadow register records the other mode; the byte
goes in a command frame of its own (D4), and then the shadow register takes the new mode (R131). -/
def enterMode (d : Nat) (m : AddressMode) (s : State) : State :=
  if (readDev d s).am = m then s else s |> cmdFrame d (modeByte s.cfg m) |> writeAm d m

/-- The acceptance of an operation: `busy` is set and the sequencer stands before the first event (R29, R30,
R120). -/
def accept (s : State) : State := { s with busy := true, seqPos := some 0 }

/-- The return of a result, which clears `busy` (R30, R120, R154). -/
def complete (r : Result) (s : State) : State :=
  { s with busy := false, seqPos := none, results := s.results ++ [r] }

/-- How every operation runs (R120). Presented while another is in progress it has no step (D3). It is accepted;
if a check of its operands failed it returns that error kind with no event and no register changed (R154);
otherwise its body performs its frames and register writes, and its result is returned. -/
def operation (failed : Option ErrorKind) (body : State → Result × State) (s : State) :
    Host.Outcome State Fault Refusal :=
  if s.busy then .fault .operationWhileBusy
  else match failed with
    | some kind => .next (complete (.error kind) (accept s))
    | none =>
      let r := body (accept s)
      .next (complete r.1 r.2)

/-- What the host port offers: nothing, or the instruction its first request stands for, with the request taken.
A block whose parameters a model must refuse fetches nothing (U11, U12, U13). -/
def fetch (s : State) : Fetched :=
  if s.cfg.wf && decide (0 < s.nDev) then
    match s.port with
    | [] => .idle
    | r :: rest =>
      match decode s.cfg r with
      | .ok i => .instr i { s with port := rest }
      | .error e => .refused (.undecodable e)
  else .refused .badConfiguration

end Sys2Proof.Machine
end

