-- ==== Sys2Proof/Machine/Operands.lean ====
section
/-! DEFINITION. The operand forms of the operations and the checks an operation makes before any wire activity
(30_encoding.md R72, 20_memory.md R46, 60_exceptions.md R151, R155). Each check answers the error kind it fails
with; checks are tried in order and the first that fails decides (R155). -/

namespace Sys2Proof.Machine

/-- A condition, as a check that fails with `InvalidArgument` (R151). -/
def require (c : Bool) : Option ErrorKind := if c then none else some .invalidArgument

/-- The operation exists in this variant (R151 (d)). -/
def checkVariant (s : State) : Option ErrorKind := require s.cfg.hasMode

/-- `d < N_DEV` (R151 (a)). -/
def checkSlot (d : Nat) (s : State) : Option ErrorKind := require (decide (d < s.nDev))

/-- `a < ADDR_COUNT` (R46, R151 (b)). -/
def checkAddress (a : Byte) (s : State) : Option ErrorKind := require (decide (a.toNat < s.cfg.addrCount))

/-- `a + len(bytes) <= ADDR_COUNT`, the sum exact in the naturals (R46, R129, R151 (c)). -/
def checkSize (a : Byte) (bytes : List Byte) (s : State) : Option ErrorKind :=
  require (decide (a.toNat + bytes.length ≤ s.cfg.addrCount))

/-- `w & 7`: a pulse width is masked to three bits and never refused (R72, R129). -/
def maskWidth (w : Byte) : BitVec 3 := (w &&& 7).truncate 3

end Sys2Proof.Machine
end

