-- ==== Sys2Proof/Machine/DeviceOps.lean ====
section
/-! DEFINITION. The meanings of the eight host operations (42_device_ops.md R121 to R128), one per rule, in the
order of its pseudocode. -/

namespace Sys2Proof.Machine

/-- `ATTACH d` (R121): the slot as after reset, with no event. -/
def execAttach (d : Nat) (s : State) : Host.Outcome State Fault Refusal :=
  operation (checkSlot d s) (fun s => (.ok, s |> configureSTB d |> writeDev d Dev.initial)) s

/-- `RESET d` (R122): the increment-mode command unconditionally; no other shadow register. -/
def execReset (d : Nat) (s : State) : Host.Outcome State Fault Refusal :=
  operation (checkSlot d s) (fun s => (.ok, s |> cmdFrame d (encDataInc s.cfg) |> writeAm d .increment)) s

/-- `DISPLAY_AUTO d, a, bytes` (R123). -/
def execDisplayAuto (d : Nat) (a : Byte) (bytes : List Byte) (s : State) : Host.Outcome State Fault Refusal :=
  operation ((checkSlot d s).or ((checkAddress a s).or (checkSize a bytes s)))
    (fun s => (.ok, s |> enterMode d .increment |> writeFrame d (encAddr a) bytes)) s

/-- `DISPLAY_FIXED d, a, b` (R124). -/
def execDisplayFixed (d : Nat) (a b : Byte) (s : State) : Host.Outcome State Fault Refusal :=
  operation ((checkSlot d s).or (checkAddress a s))
    (fun s => (.ok, s |> enterMode d .fixed |> writeFrame d (encAddr a) [b])) s

/-- `READ_KEY d` (R125): `KEY_BYTES` bytes as clocked in, no shadow register changed. -/
def execReadKey (d : Nat) (s : State) : Host.Outcome State Fault Refusal :=
  operation (checkSlot d s) (fun s =>
    let r := readFrame d (encDataRead s.cfg) s.cfg.keyBytes s
    (.okBytes r.1, r.2)) s

/-- `SET_PULSE d, w` (R126): the masked width is stored, then both fields are sent. -/
def execSetPulse (d : Nat) (w : Byte) (s : State) : Host.Outcome State Fault Refusal :=
  operation (checkSlot d s) (fun s =>
    let s' := writePw d (maskWidth w) s
    (.ok, cmdFrame d (displayControl d s') s')) s

/-- `SET_DISPLAY d, on` (R127): the flag is stored, then both fields are sent. -/
def execSetDisplay (d : Nat) (on : Bool) (s : State) : Host.Outcome State Fault Refusal :=
  operation (checkSlot d s) (fun s =>
    let s' := writeDon d on s
    (.ok, cmdFrame d (displayControl d s') s')) s

/-- `SET_MODE d, m` (R128): only when `HAS_MODE`; nothing is remembered of it (R175). -/
def execSetMode (d : Nat) (m : BitVec 2) (s : State) : Host.Outcome State Fault Refusal :=
  operation ((checkVariant s).or (checkSlot d s)) (fun s => (.ok, cmdFrame d (encMode m) s)) s

end Sys2Proof.Machine
end

