-- ==== Sys2Proof/Machine/WireCommands.lean ====
section
/-! DEFINITION. The meanings of the six wire commands (41_command_encoder.md R100 to R105): each is the frame the
spec puts the command byte in (30_encoding.md R68), performed on its own. They write no shadow register ("State
written: none"). The checks are those every caller of a frame makes first (R86, R104, R151). -/

namespace Sys2Proof.Machine

/-- `MODE(m)` in a command frame; it does not exist when `HAS_MODE` is false (R100). -/
def execMode (d : Nat) (m : BitVec 2) (s : State) : Host.Outcome State Fault Refusal :=
  operation ((checkVariant s).or (checkSlot d s)) (fun s => (.ok, cmdFrame d (encMode m) s)) s

/-- `DATA_INC` alone in a command frame (R101). -/
def execDataInc (d : Nat) (s : State) : Host.Outcome State Fault Refusal :=
  operation (checkSlot d s) (fun s => (.ok, cmdFrame d (encDataInc s.cfg) s)) s

/-- `DATA_FIXED` alone in a command frame (R102). -/
def execDataFixed (d : Nat) (s : State) : Host.Outcome State Fault Refusal :=
  operation (checkSlot d s) (fun s => (.ok, cmdFrame d (encDataFixed s.cfg) s)) s

/-- `DATA_READ` as the command byte of a read frame (R103). -/
def execDataRead (d : Nat) (s : State) : Host.Outcome State Fault Refusal :=
  operation (checkSlot d s) (fun s =>
    let r := readFrame d (encDataRead s.cfg) s.cfg.keyBytes s
    (.okBytes r.1, r.2)) s

/-- `ADDR(a)` as the command byte of a write frame (R104), within the address space (R46, R47). -/
def execAddr (d : Nat) (a : BitVec 4) (payload : List Byte) (s : State) : Host.Outcome State Fault Refusal :=
  operation ((checkSlot d s).or ((checkAddress (a.zeroExtend 8) s).or (checkSize (a.zeroExtend 8) payload s)))
    (fun s => (.ok, writeFrame d (encAddr (a.zeroExtend 8)) payload s)) s

/-- `DISP(don, pw)` alone in a command frame (R105). -/
def execDisp (d : Nat) (don : Bool) (pw : BitVec 3) (s : State) : Host.Outcome State Fault Refusal :=
  operation (checkSlot d s) (fun s => (.ok, cmdFrame d (encDisp s.cfg don pw) s)) s

end Sys2Proof.Machine
end

