-- ==== Sys2Proof/Machine/Dispatch.lean ====
section
/-! DEFINITION. Execution: one arm per instruction, each one direct call of its meaning. -/

namespace Sys2Proof.Machine

def exec (i : Instr) (s : State) : Host.Outcome State Fault Refusal :=
  match i with
  | .mode d m => Sys2Proof.Machine.execMode d m s
  | .dataInc d => Sys2Proof.Machine.execDataInc d s
  | .dataFixed d => Sys2Proof.Machine.execDataFixed d s
  | .dataRead d => Sys2Proof.Machine.execDataRead d s
  | .addr d a payload => Sys2Proof.Machine.execAddr d a payload s
  | .disp d don pw => Sys2Proof.Machine.execDisp d don pw s
  | .attach d => Sys2Proof.Machine.execAttach d s
  | .reset d => Sys2Proof.Machine.execReset d s
  | .displayAuto d a bytes => Sys2Proof.Machine.execDisplayAuto d a bytes s
  | .displayFixed d a b => Sys2Proof.Machine.execDisplayFixed d a b s
  | .readKey d => Sys2Proof.Machine.execReadKey d s
  | .setPulse d w => Sys2Proof.Machine.execSetPulse d w s
  | .setDisplay d on => Sys2Proof.Machine.execSetDisplay d on s
  | .setMode d m => Sys2Proof.Machine.execSetMode d m s

end Sys2Proof.Machine
end

