-- ==== Sys2Proof/Machine/Step.lean ====
section
/-! DEFINITION. One step: the block fetches the first request of the host port and runs it as one step (R29, R120);
with nothing presented it stays as it is (R165). And how a table word is presented to it. -/

namespace Sys2Proof.Machine

/-- One step of the block. -/
def step (s : State) : Host.Outcome State Fault Refusal :=
  match fetch s with
  | .idle => .next s
  | .instr i s' => exec i s'
  | .refused r => .refused r

/-- The host presents the request a table word stands for, before everything else on the port
(notes/assumptions/4.md). -/
def State.withFetchWord (s : State) (nbits w : Nat) : State :=
  { s with port := tableRequest nbits w :: s.port }

end Sys2Proof.Machine
end

