-- ==== Sys2Proof/Machine/TraceView.lean ====
section
/-! DEFINITION. What can be said of a trace (00_scope.md R9): the event lists the spec gives each byte and each frame
shape (40_byte_transport.md R84 to R88), the frame abstraction `frames(trace)` (R70, R92), the command bytes the
block emits (R62), the frames and the number of events of each operation (R133, R134), counts and least durations
(R93), and what a receiver that latches DIO at one clock edge takes in (R91). No step reads any of this. -/

namespace Sys2Proof.Machine

/-- The four events of one clock pulse (R84). -/
def pulseEvents (cfg : Config) : List Event := [.clk true, .delay cfg.tSettle, .clk false, .delay cfg.tSettle]

/-- The five events of one bit sent (R84). -/
def sentBitEvents (cfg : Config) (v : Bit) : List Event := .dio v :: pulseEvents cfg

/-- The five events of one bit read (R85). -/
def readBitEvents (cfg : Config) (b : Bit) : List Event := .sample b :: pulseEvents cfg

/-- The events of `SendByte(v)`: bit 0 first (R84). -/
def sentByteEvents (cfg : Config) (v : Byte) : List Event := (byteBits v).flatMap (sentBitEvents cfg)

/-- The events of `ReadByte()` when it returns `v`: bit 0 first (R85). -/
def readByteEvents (cfg : Config) (v : Byte) : List Event := (byteBits v).flatMap (readBitEvents cfg)

/-- The events of `WriteFrame(d, c, p)` (R87); with no payload they are those of `CmdFrame(d, c)` (R86). -/
def writeFrameEvents (cfg : Config) (d : Nat) (c : Byte) (p : List Byte) : List Event :=
  .stb d false :: (c :: p).flatMap (sentByteEvents cfg) ++ [.stb d true]

/-- The events of `ReadFrame(d, c, n)` when it returns the bytes `out` (R88). -/
def readFrameEvents (cfg : Config) (d : Nat) (c : Byte) (out : List Byte) : List Event :=
  .stb d false :: sentByteEvents cfg c ++ [.dio true, .delay cfg.tGuard] ++
    out.flatMap (readByteEvents cfg) ++ [.stb d true]

/-- The answers to `n` samples, the first of them with running number `k`, when `answers` are the listed ones: each
is the next listed answer or the free value (R83). -/
def upcomingBits : Nat → List Bit → Nat → List Bit
  | 0, _, _ => []
  | n + 1, answers, k => answers.headD (Config.freeSample k) :: upcomingBits n answers.tail (k + 1)

/-- The bytes those answers make, eight at a time, the first of each eight its bit 0 (R44, R85). -/
def upcomingBytes : Nat → List Bit → Nat → List Byte
  | 0, _, _ => []
  | n + 1, answers, k => byteOfBits (upcomingBits 8 answers k) :: upcomingBytes n (answers.drop 8) (k + 8)

/-- The bytes a key read of the block in this state returns (R42, R125). -/
def upcomingKeys (s : State) : List Byte := upcomingBytes s.cfg.keyBytes s.answers s.samples

/-- One frame of a trace: the slot, the bytes sent and the bytes read (R92). -/
structure Frame where
  slot : Nat
  sent : List Byte
  read : List Byte
  deriving DecidableEq, Repr

/-- How far the five events of a bit have come (R84, R85). -/
inductive Beat where
  | ready
  | data
  | high
  | highHeld
  | low
  deriving DecidableEq, Repr

/-- A frame being read from a trace: what is complete of it, the bits of the byte in progress, and whether that
byte is one read. -/
structure OpenFrame where
  slot : Nat
  sent : List Byte
  read : List Byte
  bits : List Bit
  sampling : Bool
  beat : Beat
  deriving DecidableEq, Repr

/-- The reader of a trace: the frames complete so far and the one that is open. -/
structure Cursor where
  done : List Frame
  cur : Option OpenFrame
  deriving DecidableEq, Repr

/-- The end of a bit: the eighth bit completes a sent or a read byte (R70). -/
def closeBit (f : OpenFrame) : OpenFrame :=
  if f.bits.length = 8 then
    if f.sampling then { f with read := f.read ++ [byteOfBits f.bits], bits := [], beat := .ready }
    else { f with sent := f.sent ++ [byteOfBits f.bits], bits := [], beat := .ready }
  else { f with beat := .ready }

/-- One event inside a frame, but for the end of the frame. A byte of eight bits is sent or read as its first event
says; a lone `DIO(1)` with a delay after it, between bytes, is the release and the guard of a read frame (R70). -/
def insideStep (f : OpenFrame) (e : Event) : Option OpenFrame :=
  match f.beat, e with
  | .ready, .dio v =>
    if f.bits = [] ∨ f.sampling = false then
      some { f with bits := f.bits ++ [v], sampling := false, beat := .data }
    else none
  | .ready, .sample b =>
    if f.bits = [] ∨ f.sampling = true then
      some { f with bits := f.bits ++ [b], sampling := true, beat := .data }
    else none
  | .data, .clk true => some { f with beat := .high }
  | .data, .delay _ =>
    if f.bits = [true] ∧ f.sampling = false then some { f with bits := [], beat := .ready } else none
  | .high, .delay _ => some { f with beat := .highHeld }
  | .highHeld, .clk false => some { f with beat := .low }
  | .low, .delay _ => some (closeBit f)
  | _, _ => none

/-- One event of a trace: a frame opens at `STB(d,0)` and closes at `STB(d,1)` of the same slot (R70). Anything the
block would not do has no answer. -/
def frameStep (c : Cursor) (e : Event) : Option Cursor :=
  match c.cur, e with
  | none, .stb d false =>
    some { c with cur := some { slot := d, sent := [], read := [], bits := [], sampling := false, beat := .ready } }
  | none, _ => none
  | some f, .stb d true =>
    if d = f.slot ∧ f.beat = .ready ∧ f.bits = [] ∧ f.sent ≠ [] then
      some { done := c.done ++ [{ slot := f.slot, sent := f.sent, read := f.read }], cur := none }
    else none
  | some f, e => (insideStep f e).map fun f' => { c with cur := some f' }

/-- Read events from a cursor on. -/
def readEvents (c : Cursor) (es : List Event) : Option Cursor := es.foldlM frameStep c

/-- `frames(trace)` (R70, R92): the frames of a trace in order; none for a trace that is no whole number of frames
of the block's making. -/
def frames (es : List Event) : Option (List Frame) :=
  match readEvents { done := [], cur := none } es with
  | some { done := fs, cur := none } => some fs
  | _ => none

/-- What a reader of traces reports of the first byte of a frame (R67, R70). -/
def Frame.verdict (cfg : Config) (f : Frame) : Option Verdict := f.sent.head?.map (traceVerdict cfg)

/-- The disassembler of R70: the frames of a trace in order, each with the verdict on its command byte. -/
def disassemble (cfg : Config) (es : List Event) : Option (List (Frame × Option Verdict)) :=
  (frames es).map fun fs => fs.map fun f => (f, f.verdict cfg)

/-- The command bytes the block can emit (R62). -/
def emittedCommands (cfg : Config) : List Byte :=
  (if cfg.hasMode then (List.range 4).map (BitVec.ofNat 8) else []) ++
  [cfg.cmdDataInc, cfg.cmdDataFixed, cfg.cmdDataRead] ++
  (List.range 16).map (fun k => Config.classDisp + BitVec.ofNat 8 k) ++
  (List.range cfg.addrCount).map (fun k => Config.classAddr + BitVec.ofNat 8 k)

/-- A frame of one of the three shapes of R68, on a slot that exists, its command byte one the block emits (R62) and
its payload within the address space (R47). -/
def Frame.lawful (cfg : Config) (n : Nat) (f : Frame) : Bool :=
  decide (f.slot < n) &&
  match f.sent with
  | [] => false
  | c :: payload =>
    decide (c ∈ emittedCommands cfg) &&
    match decodeCommand cfg c with
    | some .dataRead => payload == [] && f.read.length == cfg.keyBytes
    | some (.addr a) => f.read == [] && decide (a.toNat + payload.length ≤ cfg.addrCount)
    | _ => payload == [] && f.read == []

/-- The mode-setting frame of R134: `M_inc` or `M_fix`, empty when the shadow register already records the mode. -/
def modeFrame (cfg : Config) (d : Nat) (m : AddressMode) (v : Dev) : List Frame :=
  if v.am = m then [] else
    match m with
    | .increment => [{ slot := d, sent := [cfg.cmdDataInc], read := [] }]
    | .fixed => [{ slot := d, sent := [cfg.cmdDataFixed], read := [] }]

/-- The frames of every operation that passes its checks (R134), and of a wire command (R68); `v` are the shadow
registers of its slot at the start and `out` the bytes a read frame returns. -/
def summaryFrames (cfg : Config) (v : Dev) (out : List Byte) : Instr → List Frame
  | .mode d m => [{ slot := d, sent := [m.zeroExtend 8], read := [] }]
  | .dataInc d => [{ slot := d, sent := [cfg.cmdDataInc], read := [] }]
  | .dataFixed d => [{ slot := d, sent := [cfg.cmdDataFixed], read := [] }]
  | .dataRead d => [{ slot := d, sent := [cfg.cmdDataRead], read := out }]
  | .addr d a payload => [{ slot := d, sent := (0xC0 + a.zeroExtend 8) :: payload, read := [] }]
  | .disp d don pw => [{ slot := d, sent := [encDisp cfg don pw], read := [] }]
  | .attach _ => []
  | .reset d => [{ slot := d, sent := [cfg.cmdDataInc], read := [] }]
  | .displayAuto d a bytes =>
    modeFrame cfg d .increment v ++ [{ slot := d, sent := (0xC0 + a) :: bytes, read := [] }]
  | .displayFixed d a b => modeFrame cfg d .fixed v ++ [{ slot := d, sent := [0xC0 + a, b], read := [] }]
  | .readKey d => [{ slot := d, sent := [cfg.cmdDataRead], read := out }]
  | .setPulse d w => [{ slot := d, sent := [encDisp cfg v.don ((w &&& 7).truncate 3)], read := [] }]
  | .setDisplay d on => [{ slot := d, sent := [encDisp cfg on v.pw], read := [] }]
  | .setMode d m => [{ slot := d, sent := [m.zeroExtend 8], read := [] }]

/-- The length of each successful operation's event list (R133); a wire command has that of its frame (R86, R87,
R88). -/
def eventCount (cfg : Config) (v : Dev) : Instr → Nat
  | .mode _ _ => 42
  | .dataInc _ => 42
  | .dataFixed _ => 42
  | .dataRead _ => 44 + 40 * cfg.keyBytes
  | .addr _ _ payload => 42 + 40 * payload.length
  | .disp _ _ _ => 42
  | .attach _ => 0
  | .reset _ => 42
  | .displayAuto _ _ bytes => (if v.am = .fixed then 42 else 0) + 42 + 40 * bytes.length
  | .displayFixed _ _ _ => (if v.am = .increment then 42 else 0) + 82
  | .readKey _ => 44 + 40 * cfg.keyBytes
  | .setPulse _ _ => 42
  | .setDisplay _ _ => 42
  | .setMode _ _ => 42

/-- What the frames sent to slot `d` command of the chip, folded over a record of it: the addressing mode last
commanded and the display-control fields last sent (R21, R22, R23). -/
def recordFrame (cfg : Config) (d : Nat) (v : Dev) (f : Frame) : Dev :=
  if f.slot = d then
    match f.sent.head?.bind (decodeCommand cfg) with
    | some .dataInc => { v with am := .increment }
    | some .dataFixed => { v with am := .fixed }
    | some (.disp don pw) => { v with don := don, pw := pw }
    | _ => v
  else v

/-- The least time a list of events takes, in microseconds: the sum of its delays (R82, R93). -/
def leastDuration : List Event → Nat
  | [] => 0
  | .delay n :: es => n + leastDuration es
  | _ :: es => leastDuration es

/-- How often an event stands in a list of events (R93). -/
def occurrences (e : Event) (es : List Event) : Nat := es.countP fun e' => decide (e' = e)

/-- Whether an event is a write of DIO (R80). -/
def Event.isDio : Event → Bool
  | .dio _ => true
  | _ => false

/-- Whether an event is a sample (R80). -/
def Event.isSample : Event → Bool
  | .sample _ => true
  | _ => false

/-- The latches after a list of events (R81). -/
def applyEvents (p : Pins) (es : List Event) : Pins := es.foldl applyEvent p

/-- The block after it has performed a list of events: the latches they leave (R81), one entry of the trace for each
(R80), the sequencer position advanced by their number (R29), and nothing else. -/
def performed (es : List Event) (s : State) : State :=
  { s with pins := applyEvents s.pins es, trace := s.trace ++ es, seqPos := s.seqPos.map (· + es.length) }

/-- How many select latches are low (R27). -/
def lowSelects (p : Pins) : Nat := p.stb.countP fun v => !v

/-- A clock edge a receiver may latch at. -/
inductive Edge where
  | rising
  | falling
  deriving DecidableEq, Repr

/-- Whether a write of `new` to CLK, whose level is `old`, is that edge (R90: a write that changes no level is no
edge). -/
def Edge.seen : Edge → Bit → Bit → Bool
  | .rising, old, new => !old && new
  | .falling, old, new => old && !new

/-- The bits a receiver takes in that latches DIO at one edge of CLK, from levels `clk` and `dio` on (R91). -/
def latchedBits (edge : Edge) : Bit → Bit → List Event → List Bit
  | _, _, [] => []
  | old, dio, .clk new :: es =>
    if edge.seen old new then dio :: latchedBits edge new dio es else latchedBits edge new dio es
  | old, _, .dio v :: es => latchedBits edge old v es
  | old, dio, .stb _ _ :: es => latchedBits edge old dio es
  | old, dio, .delay _ :: es => latchedBits edge old dio es
  | old, dio, .sample _ :: es => latchedBits edge old dio es

end Sys2Proof.Machine
end

