-- ==== Sys2Proof/Machine/ChipView.lean ====
section
/-! DEFINITION. The intended effect of the block's frames on the chip of a slot (10_state.md R31, 20_memory.md R50,
R51; the hazard of 70_reset_and_hazards.md R174): an assumption about the environment, stated apart from the block.
Nothing of the block's state or step depends on it (92_eei_decisions.md D26). Where the spec does not say what a chip
does, there is no answer.

The chip's edge is the model's choice, which the spec has a chip model state (R91, R180, C6, U17): the chip latches DIO
at the falling edge of CLK, so it takes in every frame whole, the first one after reset included. A chip that latches
at the rising edge may lose that one frame (notes/assumptions/17.md). -/

namespace Sys2Proof.Machine

/-- The far-side state of one chip that the document names (R31). Its value at reset is unspecified (R172), so a
statement about it takes every chip. -/
structure Chip where
  /-- The display registers, address 0 first (R41). -/
  display : List Byte
  /-- The chip's addressing mode; none where the spec does not say which it is in (R177). -/
  mode : Option AddressMode
  /-- The display address at which the next payload byte is stored (R104); none where the spec does not say which it
  is: past the last address (R47) and after any frame but a write frame. -/
  pointer : Option Nat
  /-- The chip's display-on flag (R31). -/
  on : Bool
  /-- The chip's pulse width (R31). -/
  width : BitVec 3
  /-- The chip's multiplex mode (R31, R175). -/
  multiplex : BitVec 2
  deriving DecidableEq, Repr

/-- One payload byte arrives: it is stored at the pointer, which advances in auto-increment mode and stays in fixed
mode (R50, R101, R102, R174). No answer where the mode or the pointer is not known or the pointer is past the last
address (R47, R177). -/
def Chip.store (c : Chip) (b : Byte) : Option Chip :=
  match c.pointer, c.mode with
  | some a, some m =>
    if a < c.display.length then
      some { c with
        display := c.display.set a b
        pointer := match m with
          | .increment => if a + 1 < c.display.length then some (a + 1) else none
          | .fixed => some a }
    else none
  | _, _ => none

/-- The payload bytes of a frame arrive in order (R45). -/
def Chip.storeAll (c : Chip) : List Byte → Option Chip
  | [] => some c
  | b :: bs => (c.store b).bind fun c' => c'.storeAll bs

/-- The intended effect of one frame on the chip it is sent to (R50, R100 to R105). After a key read the spec does
not say in which addressing mode the chip is (R177); nor what a chip does with a byte the block never sends (U14) or
with a payload no frame shape has (R68). -/
def chipFrame (cfg : Config) (c : Chip) (f : Frame) : Option Chip :=
  match f.sent with
  | [] => none
  | cmd :: payload =>
    match traceVerdict cfg cmd, payload with
    | .command (.mode m), [] => some { c with multiplex := m, pointer := none }
    | .command .dataInc, [] => some { c with mode := some .increment, pointer := none }
    | .command .dataFixed, [] => some { c with mode := some .fixed, pointer := none }
    | .command .dataRead, [] => some { c with mode := none, pointer := none }
    | .command (.disp don pw), [] => some { c with on := don, width := pw, pointer := none }
    | .command (.addr a), _ => { c with pointer := some a.toNat }.storeAll payload
    | _, _ => none

/-- The intended effect of a list of frames on the chip of slot `d`; a chip whose STB is high takes no part in the
traffic (R56). -/
def chipFrames (cfg : Config) (d : Nat) (c : Chip) (fs : List Frame) : Option Chip :=
  fs.foldlM (fun c f => if f.slot = d then chipFrame cfg c f else some c) c

/-- The answers a chip that presents the key-scan bytes `keys` gives to the samples of a key read: one bit per clock
pulse, least significant first (R44, R51). -/
def keyAnswers (keys : List Byte) : List Bit := keys.flatMap byteBits

end Sys2Proof.Machine
end

