-- ==== Sys2Proof/Safety.lean ====
section
/-! DEFINITION. What counts as a safe run of the block, in the terms the statements use: the latches between
operations (10_state.md R27), the discipline of the shared lines (R27, R83, R89, R94), the frames a trace may hold
(R62, R68), the results an operation may return (R42, R152), and the shadow registers as a record of what was sent
(R21 to R23). -/

namespace Sys2Proof.Machine

/-- Between operations: not busy, no sequencer position, and every select latch high, one for each slot (R27 (a),
R29, R30). -/
abbrev Quiescent (s : State) : Prop :=
  s.busy = false ∧ s.seqPos = none ∧ s.pins.stb = List.replicate s.nDev true

/-- What an event requires of the latches before it: a frame opens when no chip is selected and closes on the slot
that is; clock, data, delays and samples fall inside a frame, with exactly one chip selected (R27 (b), (c), R94);
a sample is taken only while DIO is released (R83). -/
def eventAllowed (p : Pins) : Event → Bool
  | .stb d false => decide (d < p.stb.length) && lowSelects p == 0
  | .stb d true => lowSelects p == 1 && p.stb[d]? == some false
  | .clk _ => lowSelects p == 1
  | .dio _ => lowSelects p == 1
  | .delay _ => lowSelects p == 1
  | .sample _ => lowSelects p == 1 && p.dio

/-- Every event of a list is allowed at the latches the events before it leave (R27, R83, R89, R94). -/
def busLawful (p : Pins) : List Event → Bool
  | [] => true
  | e :: es => eventAllowed p e && busLawful (applyEvent p e) es

/-- The trace accounts for the latches: they are what its pin writes leave from reset on, and every one of its events
kept the discipline of the lines (R24, R25, R26, R27). -/
abbrev LinesLawful (s : State) : Prop :=
  s.pins = applyEvents (Pins.initial s.nDev) s.trace ∧ busLawful (Pins.initial s.nDev) s.trace = true

/-- The trace is a whole number of frames, each of them one the block may send (R62, R68, R70). -/
def FramesLawful (s : State) : Prop :=
  ∃ fs, frames s.trace = some fs ∧ ∀ f ∈ fs, f.lawful s.cfg s.nDev = true

/-- A result the block may return: success, a key read of `KEY_BYTES` bytes, or the one error kind of R151 (R42,
R152). -/
def Result.lawful (cfg : Config) : Result → Bool
  | .ok => true
  | .okBytes bytes => bytes.length == cfg.keyBytes
  | .error kind => kind == .invalidArgument

/-- Every result so far is lawful. -/
abbrev ResultsLawful (s : State) : Prop := ∀ r ∈ s.results, r.lawful s.cfg = true

/-- The shadow registers of every slot are the record of what the frames of the trace commanded its chip, from the
values after reset on (R21, R22, R23). -/
def ShadowsRecord (s : State) : Prop :=
  ∃ fs, frames s.trace = some fs ∧
    ∀ d v, s.devs[d]? = some v → v = fs.foldl (recordFrame s.cfg d) Dev.initial

/-- The checks of an instruction's operands pass (R151): its variant has it, its slot exists, and its address and
payload are in range. -/
def accepted (cfg : Config) (n : Nat) : Instr → Bool
  | .mode d _ => cfg.hasMode && decide (d < n)
  | .dataInc d => decide (d < n)
  | .dataFixed d => decide (d < n)
  | .dataRead d => decide (d < n)
  | .addr d a payload =>
    decide (d < n) && decide (a.toNat < cfg.addrCount) && decide (a.toNat + payload.length ≤ cfg.addrCount)
  | .disp d _ _ => decide (d < n)
  | .attach d => decide (d < n)
  | .reset d => decide (d < n)
  | .displayAuto d a bytes =>
    decide (d < n) && decide (a.toNat < cfg.addrCount) && decide (a.toNat + bytes.length ≤ cfg.addrCount)
  | .displayFixed d a _ => decide (d < n) && decide (a.toNat < cfg.addrCount)
  | .readKey d => decide (d < n)
  | .setPulse d _ => decide (d < n)
  | .setDisplay d _ => decide (d < n)
  | .setMode d _ => cfg.hasMode && decide (d < n)

end Sys2Proof.Machine
end

