-- ==== Sys2Proof/WellFormed.lean ====
section
/-! DEFINITION. Which instructions some variant accepts: the operands that can pass the range check of R46 on the
largest address space there is. An ill-formed instruction is encoded, decoded and run like any other, and answers
`InvalidArgument` on every block (R151, R154). The checks an operation makes on its own block are in
Machine/Operands.lean. -/

namespace Sys2Proof

/-- The largest `ADDR_COUNT` of any variant (R6): addresses are 4-bit numbers (R41). -/
def maxAddrCount : Nat := 16

/-- A run of `n` bytes from address `a` on lies in the largest address space (R46, R47). -/
def runFits (a n : Nat) : Bool := decide (a < maxAddrCount) && decide (a + n ≤ maxAddrCount)

/-- An instruction whose operands some variant accepts (R46, R151). -/
def Instr.wellFormed : Instr → Bool
  | .mode _ _ => true
  | .dataInc _ => true
  | .dataFixed _ => true
  | .dataRead _ => true
  | .addr _ a payload => runFits a.toNat payload.length
  | .disp _ _ _ => true
  | .attach _ => true
  | .reset _ => true
  | .displayAuto _ a bytes => runFits a.toNat bytes.length
  | .displayFixed _ a _ => runFits a.toNat 1
  | .readKey _ => true
  | .setPulse _ _ => true
  | .setDisplay _ _ => true
  | .setMode _ _ => true

end Sys2Proof
end

