-- ==== Sys2Proof/Certificates/Slice0/Obligations.lean ====
section
/-! DEFINITION. The statements about the block, each from the numbered rules of spec/. The traces are given by the event
lists of Machine/TraceView.lean, which the spec lists for each byte and frame (R84 to R88). -/

open Sys2Proof Sys2Proof.Machine

namespace Sys2Proof.Machine

/-- The state `s` after an operation has returned `r`, having performed the events `es` and left the latches `pins` and
the shadow registers `devs`: everything else of the block is as before. -/
def returned (s : State) (es : List Event) (pins : Pins) (devs : List Dev) (r : Result) : State :=
  { s with trace := s.trace ++ es, pins := pins, devs := devs, seqPos := none, results := s.results ++ [r] }

/-- The state `s` after an operation has failed (R154): the result, and nothing else. -/
def rejected (s : State) : State := { s with seqPos := none, results := s.results ++ [.error .invalidArgument] }

/-- The latches `p` after a frame on slot `d` that leaves `dio` on the data line (R90). -/
def framed (p : Pins) (d : Nat) (dio : Bit) : Pins := { clk := false, dio := dio, stb := p.stb.set d true }

/-- The state `s` with the answers of a key read taken (R83). -/
def keysTaken (s : State) : State :=
  { s with answers := s.answers.drop (8 * s.cfg.keyBytes), samples := s.samples + 8 * s.cfg.keyBytes }

/-- An event with the answer of a sample put out of sight (R130). -/
def Event.shape : Event → Event
  | .stb d v => .stb d v
  | .clk v => .clk v
  | .dio v => .dio v
  | .delay n => .delay n
  | .sample _ => .sample false

/-- The value of the address-mode register after a successful operation: the table of R131. -/
def nextMode (am : AddressMode) : Instr → AddressMode
  | .mode _ _ => am
  | .dataInc _ => am
  | .dataFixed _ => am
  | .dataRead _ => am
  | .addr _ _ _ => am
  | .disp _ _ _ => am
  | .attach _ => .increment
  | .reset _ => .increment
  | .displayAuto _ _ _ => .increment
  | .displayFixed _ _ _ => .fixed
  | .readKey _ => am
  | .setPulse _ _ => am
  | .setDisplay _ _ => am
  | .setMode _ _ => am

/-- The mode-setting commands of the table of R131. -/
def tableModeCommands (cfg : Config) (am : AddressMode) : Instr → List Byte
  | .mode _ _ => []
  | .dataInc _ => [cfg.cmdDataInc]
  | .dataFixed _ => [cfg.cmdDataFixed]
  | .dataRead _ => []
  | .addr _ _ _ => []
  | .disp _ _ _ => []
  | .attach _ => []
  | .reset _ => [cfg.cmdDataInc]
  | .displayAuto _ _ _ => if am = .fixed then [cfg.cmdDataInc] else []
  | .displayFixed _ _ _ => if am = .increment then [cfg.cmdDataFixed] else []
  | .readKey _ => []
  | .setPulse _ _ => []
  | .setDisplay _ _ => []
  | .setMode _ _ => []

/-- The mode-setting commands among the frames of a trace: the command bytes that are one of the two (R131). -/
def sentModeCommands (cfg : Config) (fs : List Frame) : List Byte :=
  (fs.filterMap fun f => f.sent.head?).filter fun c => c == cfg.cmdDataInc || c == cfg.cmdDataFixed

end Sys2Proof.Machine

/-! ### Reset and the step -/

/-- R170: the state after reset of a block with any parameters and any number of slots. -/
def Obligations.ResetSetsLatchesAndShadows : Prop :=
  ∀ (cfg : Config) (n : Nat), ∃ s, State.powerOn cfg n = s ∧
    s.pins.clk = true ∧ s.pins.dio = true ∧ s.devs.length = n ∧ s.pins.stb.length = n ∧
    (∀ d < n, s.pins.stb[d]? = some true ∧
      s.devs[d]? = some { am := .increment, don := false, pw := 4 }) ∧
    s.busy = false ∧ s.trace = []

/-- The invariants below hold right after reset, whatever the parameters and the number of slots; and the model's own
reset state, the TM1638 with one slot, is such a state (notes/assumptions/1.md). -/
def Obligations.InvariantsHoldAtReset : Prop :=
  State.reset = State.powerOn Config.tm1638 1 ∧
  ∀ (cfg : Config) (n : Nat), ∃ s, State.powerOn cfg n = s ∧
    Quiescent s ∧ LinesLawful s ∧ FramesLawful s ∧ ResultsLawful s ∧ ShadowsRecord s

/-- A step runs the instruction its first request stands for, with that request taken off the port; with nothing
presented the block stays as it is; a request that stands for no instruction is refused by name; and a block whose
parameters a model has to refuse does nothing (U11, U12, U13). The port and the refusals are the model's own
(notes/assumptions/3.md, 5.md, 9.md). -/
def Obligations.StepRunsTheDecodedInstruction : Prop :=
  (∀ (s : State) (r : Request) (rest : List Request) (i : Instr),
    s.cfg.wf = true → 0 < s.nDev → s.port = r :: rest → decode s.cfg r = .ok i →
    step s = exec i { s with port := rest }) ∧
  (∀ s : State, s.cfg.wf = true → 0 < s.nDev → s.port = [] → step s = .next s) ∧
  (∀ (s : State) (r : Request) (rest : List Request) (e : DecodeError),
    s.cfg.wf = true → 0 < s.nDev → s.port = r :: rest → decode s.cfg r = .error e →
    step s = .refused (.undecodable e)) ∧
  (∀ s : State, s.cfg.wf = false ∨ s.nDev = 0 → step s = .refused .badConfiguration)

/-- R6: the variant never changes, and neither does the number of slots (R5). -/
def Obligations.StepKeepsTheConfiguration : Prop :=
  ∀ s t : State, step s = .next t → t.cfg = s.cfg ∧ t.nDev = s.nDev

/-- D3 and U8, the spec's own decision: an operation presented while another is in progress has no step; the model says
so with a named fault (notes/assumptions/10.md). -/
def Obligations.BusyBlockIsStuck : Prop :=
  ∀ (i : Instr) (s : State), s.busy = true → exec i s = .fault .operationWhileBusy

/-! ### Encodings -/

/-- A few words written out from the encoding tables (R63 to R66, R71) and read as R108 reads them: a sanity statement.
The places of the bits within a class are the family's and the byte form of the operands is the model's own
(notes/assumptions/3.md, 4.md, 7.md); that a request is read by `Dec` of R108 and not by the verdict of R67 is the
model's choice (notes/assumptions/20.md). -/
def Obligations.TableWordsDecode : Prop :=
  decode (Config.tm1668 16) (.wire 0 0b00000011 []) = .ok (.mode 0 3) ∧
  decode Config.tm1638 (.wire 0 0b01000000 []) = .ok (.dataInc 0) ∧
  decode Config.tm1638 (.wire 0 0b01000100 []) = .ok (.dataFixed 0) ∧
  decode Config.tm1638 (.wire 0 0b01000010 []) = .ok (.dataRead 0) ∧
  decode Config.tm1638 (.wire 0 0b11000111 [0x3F]) = .ok (.addr 0 7 [0x3F]) ∧
  decode Config.tm1638 (.wire 0 0b10001010 []) = .ok (.disp 0 true 2) ∧
  decode Config.tm1638 (.wire 0 0x46 []) = .error (.unknownCommand 0x46) ∧
  decode Config.tm1638 (.host 0b010 0 [0x00, 0x3F, 0x06]) = .ok (.displayAuto 0 0 [0x3F, 0x06]) ∧
  decode Config.tm1638 (.host 0b101 1 [0xFF]) = .ok (.setPulse 1 0xFF) ∧
  decodeTableWord 8 0b111 = some (.setMode 0 0)

/-- Decoding the request of an instruction gives the instruction, with every operand at every value, for every
configuration whose command bytes a model accepts. For the command bytes this is the last sentence of R108, the
spec's own inference; the byte form of the operands is the model's own (notes/assumptions/3.md). -/
def Obligations.DecodeInvertsEncode : Prop :=
  ∀ (cfg : Config) (i : Instr), cfg.bytesOk = true → decode cfg (encode cfg i) = .ok i

/-- The converse: a request that decodes is the encoding of the instruction it decodes to, so no reserved command byte,
no Boolean or mode byte outside its type (R72) and no operand too many falls onto another instruction
(notes/assumptions/3.md, 20.md). -/
def Obligations.EncodeInvertsDecode : Prop :=
  ∀ (cfg : Config) (r : Request) (i : Instr), cfg.bytesOk = true → decode cfg r = .ok i → encode cfg i = r

/-- R108, the spec's own inference: `Dec` answers a command exactly for the byte that command is encoded as, and UNKNOWN
exactly for the bytes that are the encoding of no command. -/
def Obligations.ReservedBytesDecodeToNothing : Prop :=
  ∀ (cfg : Config) (c : Byte), cfg.bytesOk = true →
    (decodeCommand cfg c = none ↔ ∀ k, encodeCommand cfg k ≠ c) ∧
    (∀ k, decodeCommand cfg c = some k ↔ encodeCommand cfg k = c)

/-- R67: a reader of traces reports UNKNOWN for every first byte outside the set R62 lists for the variant (the spec's
own inference), mode bytes without `HAS_MODE` and addresses beyond the last among them, and for a byte of the set
the command it is the encoding of. -/
def Obligations.TraceVerdictsFollowTheEmittedSet : Prop :=
  ∀ (cfg : Config) (c : Byte), cfg.wf = true →
    (c ∉ emittedCommands cfg → traceVerdict cfg c = .unknown c) ∧
    (c ∈ emittedCommands cfg → ∃ k, traceVerdict cfg c = .command k ∧ encodeCommand cfg k = c)

/-- R107, the spec's own inference from R100 to R105: the encoder is injective, the four classes stand in bits 7:6, and
the default bytes meet the conditions. -/
def Obligations.EncoderIsInjective : Prop :=
  (∀ (cfg : Config) (c c' : Command), cfg.bytesOk = true →
    encodeCommand cfg c = encodeCommand cfg c' → c = c') ∧
  (∀ (cfg : Config) (m : BitVec 2) (a : BitVec 4) (don : Bool) (pw : BitVec 3), cfg.bytesOk = true →
    (encodeCommand cfg (.mode m)).extractLsb' 6 2 = 0 ∧
    (encodeCommand cfg .dataInc).extractLsb' 6 2 = 1 ∧
    (encodeCommand cfg .dataFixed).extractLsb' 6 2 = 1 ∧
    (encodeCommand cfg .dataRead).extractLsb' 6 2 = 1 ∧
    (encodeCommand cfg (.disp don pw)).extractLsb' 6 2 = 2 ∧
    (encodeCommand cfg (.addr a)).extractLsb' 6 2 = 3) ∧
  Config.tm1638.bytesOk = true

/-- The encoder's values with the defaults of R7: mode `m`, address `0xC0 + a` for every address byte below 16, display
control `0x80 + 8 * don + pw` (R100, R104, R105). The places of the flag and of `m` are the family's
(notes/assumptions/7.md). -/
def Obligations.CommandBytesHaveTheirValues : Prop :=
  ∀ (m : BitVec 2) (a : Byte) (don : Bool) (pw : BitVec 3),
    (encMode m).toNat = m.toNat ∧
    (a.toNat < 16 → (encAddr a).toNat = 0xC0 + a.toNat) ∧
    (encDisp Config.tm1638 don pw).toNat = 0x80 + 8 * don.toNat + pw.toNat ∧
    encDataInc Config.tm1638 = 0x40 ∧ encDataFixed Config.tm1638 = 0x44 ∧ encDataRead Config.tm1638 = 0x42

/-! ### The byte transport -/

/-- R84: `SendByte` performs for each bit, from bit 0 to bit 7, the five events of its loop, forty in all, and leaves
`clk` low and `dio` at bit 7. -/
def Obligations.SendByteClocksLsbFirst : Prop :=
  ∀ (v : Byte) (s : State), ∃ es : List Event,
    es = (List.range 8).flatMap (fun i => [.dio (v.getLsbD i), .clk true, .delay s.cfg.tSettle, .clk false,
      .delay s.cfg.tSettle]) ∧
    es.length = 40 ∧
    sendByte v s = { s with
      trace := s.trace ++ es
      seqPos := s.seqPos.map (· + 40)
      pins := { s.pins with clk := false, dio := v.getLsbD 7 } }

/-- R85 (and R44): `ReadByte` samples before each pulse, puts the first sample in bit 0 and the eighth in bit 7, and
writes `clk` only. -/
def Obligations.ReadByteSamplesLsbFirst : Prop :=
  ∀ s : State, ∃ (r : Byte) (es : List Event),
    (∀ i < 8, some (r.getLsbD i) = (upcomingBits 8 s.answers s.samples)[i]?) ∧
    es = (List.range 8).flatMap (fun i => [.sample (r.getLsbD i), .clk true, .delay s.cfg.tSettle, .clk false,
      .delay s.cfg.tSettle]) ∧
    readByte s = (r, { s with
      trace := s.trace ++ es
      seqPos := s.seqPos.map (· + 40)
      pins := { s.pins with clk := false }
      answers := s.answers.drop 8
      samples := s.samples + 8 })

/-- R86 and R87: what a command frame and a write frame perform and leave; a write frame with no payload is a command
frame. -/
def Obligations.CommandAndWriteFrames : Prop :=
  (∀ (d : Nat) (c : Byte) (p : List Byte) (s : State),
    writeFrame d c p s = { s with
      trace := s.trace ++ (.stb d false :: (c :: p).flatMap (sentByteEvents s.cfg) ++ [.stb d true])
      seqPos := s.seqPos.map (· + (2 + 40 * (1 + p.length)))
      pins := { clk := false, dio := (p.getLastD c).getLsbD 7, stb := s.pins.stb.set d true } }) ∧
  (∀ (d : Nat) (c : Byte) (s : State),
    cmdFrame d c s = { s with
      trace := s.trace ++ (.stb d false :: sentByteEvents s.cfg c ++ [.stb d true])
      seqPos := s.seqPos.map (· + 42)
      pins := { clk := false, dio := c.getLsbD 7, stb := s.pins.stb.set d true } })

/-- R88: what a read frame performs, returns and leaves: `dio` stays released. -/
def Obligations.ReadFrameReleasesAndReads : Prop :=
  ∀ (d : Nat) (c : Byte) (n : Nat) (s : State), ∃ out : List Byte,
    out.length = n ∧ out = upcomingBytes n s.answers s.samples ∧
    readFrame d c n s = (out, { s with
      trace := s.trace ++ (.stb d false :: sentByteEvents s.cfg c ++ [.dio true, .delay s.cfg.tGuard] ++
        out.flatMap (readByteEvents s.cfg) ++ [.stb d true])
      seqPos := s.seqPos.map (· + (44 + 40 * n))
      pins := { clk := false, dio := true, stb := s.pins.stb.set d true }
      answers := s.answers.drop (8 * n)
      samples := s.samples + 8 * n })

/-- R93, the spec's own inference from R84 to R88: the counts of a byte and of the three frame shapes, and their least
durations. -/
def Obligations.ByteAndFrameCounts : Prop :=
  (∀ (cfg : Config) (v : Byte),
    occurrences (.clk true) (sentByteEvents cfg v) = 8 ∧ occurrences (.clk false) (sentByteEvents cfg v) = 8 ∧
    occurrences (.delay cfg.tSettle) (sentByteEvents cfg v) = 16 ∧
    (sentByteEvents cfg v).countP Event.isDio = 8 ∧
    leastDuration (sentByteEvents cfg v) = 16 * cfg.tSettle ∧
    occurrences (.clk true) (readByteEvents cfg v) = 8 ∧ occurrences (.clk false) (readByteEvents cfg v) = 8 ∧
    occurrences (.delay cfg.tSettle) (readByteEvents cfg v) = 16 ∧
    (readByteEvents cfg v).countP Event.isSample = 8 ∧
    leastDuration (readByteEvents cfg v) = 16 * cfg.tSettle) ∧
  (∀ (cfg : Config) (d : Nat) (c : Byte) (p : List Byte),
    occurrences (.stb d false) (writeFrameEvents cfg d c p) = 1 ∧
    occurrences (.stb d true) (writeFrameEvents cfg d c p) = 1 ∧
    occurrences (.clk true) (writeFrameEvents cfg d c p) = 8 * (1 + p.length) ∧
    leastDuration (writeFrameEvents cfg d c p) = 16 * cfg.tSettle * (1 + p.length)) ∧
  (∀ (cfg : Config) (d : Nat) (c : Byte) (out : List Byte),
    occurrences (.stb d false) (readFrameEvents cfg d c out) = 1 ∧
    occurrences (.stb d true) (readFrameEvents cfg d c out) = 1 ∧
    occurrences (.clk true) (readFrameEvents cfg d c out) = 8 * (1 + out.length) ∧
    leastDuration (readFrameEvents cfg d c out) =
      16 * cfg.tSettle + cfg.tGuard + 16 * cfg.tSettle * out.length)

/-- R91: a receiver that latches DIO at either edge of CLK gets the byte sent when CLK is low at the start; R180: from
CLK high, as after reset, a rising-edge receiver misses bit 0 and a falling-edge receiver misses nothing. Both are
the spec's own inferences from R84 and R90. -/
def Obligations.EitherEdgeReceivesTheByte : Prop :=
  ∀ (cfg : Config) (v : Byte) (dio : Bit),
    (∀ edge : Edge, latchedBits edge false dio (sentByteEvents cfg v) = byteBits v) ∧
    latchedBits .falling true dio (sentByteEvents cfg v) = byteBits v ∧
    latchedBits .rising true dio (sentByteEvents cfg v) = (byteBits v).tail

/-! ### The host operations: result, next state and frame -/

/-- R121: ATTACH. -/
def Obligations.AttachInitialisesTheSlot : Prop :=
  ∀ (d : Nat) (s : State), s.busy = false →
    (d < s.nDev → exec (.attach d) s = .next (returned s [] { s.pins with stb := s.pins.stb.set d true }
      (s.devs.set d { am := .increment, don := false, pw := 4 }) .ok)) ∧
    (s.nDev ≤ d → exec (.attach d) s = .next (rejected s))

/-- R122: RESET sends the increment-mode command unconditionally and clears no other state. -/
def Obligations.ResetSendsIncrementMode : Prop :=
  ∀ (d : Nat) (s : State), s.busy = false →
    (∀ v, s.devs[d]? = some v → exec (.reset d) s = .next (returned s
      (writeFrameEvents s.cfg d s.cfg.cmdDataInc []) (framed s.pins d (s.cfg.cmdDataInc.getLsbD 7))
      (s.devs.set d { v with am := .increment }) .ok)) ∧
    (s.nDev ≤ d → exec (.reset d) s = .next (rejected s))

/-- R123: DISPLAY_AUTO, with the mode-setting frame exactly when the shadow register records Fixed. -/
def Obligations.DisplayAutoWritesInSequence : Prop :=
  ∀ (d : Nat) (a : Byte) (bytes : List Byte) (s : State), s.busy = false →
    (∀ v, s.devs[d]? = some v → a.toNat < s.cfg.addrCount → a.toNat + bytes.length ≤ s.cfg.addrCount →
      exec (.displayAuto d a bytes) s = .next (returned s
        ((if v.am = .fixed then writeFrameEvents s.cfg d s.cfg.cmdDataInc [] else []) ++
          writeFrameEvents s.cfg d (0xC0 ||| a) bytes)
        (framed s.pins d ((bytes.getLastD (0xC0 ||| a)).getLsbD 7))
        (s.devs.set d { v with am := .increment }) .ok)) ∧
    (s.nDev ≤ d ∨ s.cfg.addrCount ≤ a.toNat ∨ s.cfg.addrCount < a.toNat + bytes.length →
      exec (.displayAuto d a bytes) s = .next (rejected s))

/-- R124: DISPLAY_FIXED, with the mode-setting frame exactly when the shadow register records Increment. -/
def Obligations.DisplayFixedWritesOneByte : Prop :=
  ∀ (d : Nat) (a b : Byte) (s : State), s.busy = false →
    (∀ v, s.devs[d]? = some v → a.toNat < s.cfg.addrCount →
      exec (.displayFixed d a b) s = .next (returned s
        ((if v.am = .increment then writeFrameEvents s.cfg d s.cfg.cmdDataFixed [] else []) ++
          writeFrameEvents s.cfg d (0xC0 ||| a) [b])
        (framed s.pins d (b.getLsbD 7)) (s.devs.set d { v with am := .fixed }) .ok)) ∧
    (s.nDev ≤ d ∨ s.cfg.addrCount ≤ a.toNat → exec (.displayFixed d a b) s = .next (rejected s))

/-- R125: READ_KEY returns exactly `KEY_BYTES` bytes, assembled least significant bit first from the answers of the
environment, and changes no shadow register. -/
def Obligations.ReadKeyReturnsTheSamples : Prop :=
  ∀ (d : Nat) (s : State), s.busy = false →
    (d < s.nDev → ∃ out, out = upcomingKeys s ∧ out.length = s.cfg.keyBytes ∧
      exec (.readKey d) s = .next (returned (keysTaken s) (readFrameEvents s.cfg d s.cfg.cmdDataRead out)
        (framed s.pins d true) s.devs (.okBytes out))) ∧
    (s.nDev ≤ d → exec (.readKey d) s = .next (rejected s))

/-- R126: SET_PULSE stores `w & 7` and sends both fields. -/
def Obligations.SetPulseStoresAndSends : Prop :=
  ∀ (d : Nat) (w : Byte) (s : State), s.busy = false →
    (∀ v, s.devs[d]? = some v → ∃ (c : Byte) (pw : BitVec 3), pw.toNat = w.toNat % 8 ∧
      c = 0x80 ||| b2n v.don * s.cfg.dispOnBit ||| (w &&& 7) ∧
      exec (.setPulse d w) s = .next (returned s (writeFrameEvents s.cfg d c []) (framed s.pins d (c.getLsbD 7))
        (s.devs.set d { v with pw := pw }) .ok)) ∧
    (s.nDev ≤ d → exec (.setPulse d w) s = .next (rejected s))

/-- R127: SET_DISPLAY stores the flag and sends both fields. -/
def Obligations.SetDisplayStoresAndSends : Prop :=
  ∀ (d : Nat) (on : Bool) (s : State), s.busy = false →
    (∀ v, s.devs[d]? = some v → ∃ c : Byte,
      c = 0x80 ||| b2n on * s.cfg.dispOnBit ||| BitVec.ofNat 8 v.pw.toNat ∧
      exec (.setDisplay d on) s = .next (returned s (writeFrameEvents s.cfg d c []) (framed s.pins d (c.getLsbD 7))
        (s.devs.set d { v with don := on }) .ok)) ∧
    (s.nDev ≤ d → exec (.setDisplay d on) s = .next (rejected s))

/-- R128: SET_MODE sends the mode byte and remembers nothing; it fails for every call when `HAS_MODE` is false (D21, the
spec's own decision). That `m` stands in bits 1:0 is the family's (notes/assumptions/7.md). -/
def Obligations.SetModeSendsAndForgets : Prop :=
  ∀ (d : Nat) (m : BitVec 2) (s : State), s.busy = false →
    (s.cfg.hasMode = true → d < s.nDev → exec (.setMode d m) s = .next (returned s
      (writeFrameEvents s.cfg d (BitVec.ofNat 8 m.toNat) []) (framed s.pins d false) s.devs .ok)) ∧
    (s.cfg.hasMode = false ∨ s.nDev ≤ d → exec (.setMode d m) s = .next (rejected s))

/-! ### The wire commands on their own -/

/-- MODE, DATA_INC, DATA_FIXED and DISP, each alone in a command frame that writes no shadow register (R100, R101, R102,
R105). That a wire command runs on its own is the model's choice (notes/assumptions/6.md); that `m` stands in bits
1:0 is the family's (notes/assumptions/7.md). -/
def Obligations.CommandFrameInstructions : Prop :=
  ∀ (d : Nat) (s : State), s.busy = false → d < s.nDev →
    (∀ m : BitVec 2, s.cfg.hasMode = true → exec (.mode d m) s = .next (returned s
      (writeFrameEvents s.cfg d (BitVec.ofNat 8 m.toNat) []) (framed s.pins d false) s.devs .ok)) ∧
    exec (.dataInc d) s = .next (returned s (writeFrameEvents s.cfg d s.cfg.cmdDataInc [])
      (framed s.pins d (s.cfg.cmdDataInc.getLsbD 7)) s.devs .ok) ∧
    exec (.dataFixed d) s = .next (returned s (writeFrameEvents s.cfg d s.cfg.cmdDataFixed [])
      (framed s.pins d (s.cfg.cmdDataFixed.getLsbD 7)) s.devs .ok) ∧
    (∀ (don : Bool) (pw : BitVec 3), ∃ c : Byte,
      c = 0x80 ||| b2n don * s.cfg.dispOnBit ||| BitVec.ofNat 8 pw.toNat ∧
      exec (.disp d don pw) s = .next (returned s (writeFrameEvents s.cfg d c [])
        (framed s.pins d (c.getLsbD 7)) s.devs .ok))

/-- DATA_READ as the command byte of a read frame (R103) and ADDR as that of a write frame within the address space
(R104, R47); neither writes a shadow register. That a wire command runs on its own is the model's choice
(notes/assumptions/6.md). -/
def Obligations.ReadAndWriteFrameInstructions : Prop :=
  ∀ (d : Nat) (s : State), s.busy = false → d < s.nDev →
    exec (.dataRead d) s = .next (returned (keysTaken s) (readFrameEvents s.cfg d s.cfg.cmdDataRead (upcomingKeys s))
      (framed s.pins d true) s.devs (.okBytes (upcomingKeys s))) ∧
    (∀ (a : BitVec 4) (payload : List Byte), a.toNat < s.cfg.addrCount →
      a.toNat + payload.length ≤ s.cfg.addrCount → ∃ c : Byte, c.toNat = 0xC0 + a.toNat ∧
      exec (.addr d a payload) s = .next (returned s (writeFrameEvents s.cfg d c payload)
        (framed s.pins d ((payload.getLastD c).getLsbD 7)) s.devs .ok))

/-! ### Errors -/

/-- R154: a host operation whose operand checks fail returns `InvalidArgument` and changes nothing else: no event, no
register, no latch. The checks are those of R151. -/
def Obligations.FailedChecksChangeNothing : Prop :=
  ∀ (i : Instr) (s : State), i.isHostOp = true → s.busy = false → s.seqPos = none →
    accepted s.cfg s.nDev i = false →
    exec i s = .next { s with results := s.results ++ [.error .invalidArgument] }

/-- The same of a wire command run on its own, which is the model's choice (notes/assumptions/6.md): the checks are
those every caller of a frame makes first (R86, R104), and a failed one answers as R154 has it. -/
def Obligations.WireCommandsCheckTheirOperands : Prop :=
  ∀ (i : Instr) (s : State), i.isHostOp = false → s.busy = false → s.seqPos = none →
    accepted s.cfg s.nDev i = false →
    exec i s = .next { s with results := s.results ++ [.error .invalidArgument] }

/-- R46: an address outside the largest address space, or a run of bytes past its end, is refused by every variant with
`InvalidArgument` and nothing else (R154), also as the operand of a wire command run alone (the model's choice,
notes/assumptions/6.md). -/
def Obligations.IllFormedInstructionsAreRejected : Prop :=
  ∀ (i : Instr) (s : State), s.cfg.wf = true → s.busy = false → s.seqPos = none → i.wellFormed = false →
    exec i s = .next { s with results := s.results ++ [.error .invalidArgument] }

/-- R158, R152 (for a wire command run alone the model's choice, notes/assumptions/6.md): an instruction presented to an
idle block always returns, with exactly one result and the block idle again; the result is an error exactly when a
check of its operands fails, and then it is `InvalidArgument`. -/
def Obligations.EveryInstructionReturns : Prop :=
  ∀ (i : Instr) (s : State), s.busy = false → ∃ (t : State) (r : Result),
    exec i s = .next t ∧ t.results = s.results ++ [r] ∧ t.busy = false ∧ t.seqPos = none ∧
    (accepted s.cfg s.nDev i = false ↔ r = .error .invalidArgument) ∧
    (∀ kind, r = .error kind → kind = .invalidArgument)

/-! ### The laws of the operations -/

/-- R133, the spec's own inference from R84 to R88: the length of each successful operation's event list; a failed one
has length 0. A wire command has the length of its frame (notes/assumptions/6.md). -/
def Obligations.EventListLengths : Prop :=
  ∀ (i : Instr) (s : State), s.busy = false →
    (∀ v, s.devs[i.slot]? = some v → accepted s.cfg s.nDev i = true →
      ∃ (t : State) (es : List Event), exec i s = .next t ∧ t.trace = s.trace ++ es ∧
        es.length = eventCount s.cfg v i) ∧
    (accepted s.cfg s.nDev i = false → ∃ t : State, exec i s = .next t ∧ t.trace = s.trace)

/-- R134, the spec's own inference from R121 to R128: the frames every successful operation adds to the frames of the
trace; a wire command adds its own frame (notes/assumptions/6.md). -/
def Obligations.FrameSummary : Prop :=
  ∀ (i : Instr) (s : State) (v : Dev) (fs : List Frame), s.cfg.wf = true → s.busy = false →
    s.devs[i.slot]? = some v → accepted s.cfg s.nDev i = true → frames s.trace = some fs →
    ∃ t : State, exec i s = .next t ∧
      frames t.trace = some (fs ++ summaryFrames s.cfg v (upcomingKeys s) i)

/-- R131, the spec's own inference from R121 to R128: the address-mode register after every host operation and the
mode-setting commands it sends. -/
def Obligations.AddressModeTable : Prop :=
  ∀ (i : Instr) (s : State) (v : Dev) (fs : List Frame), s.cfg.bytesOk = true → s.busy = false →
    i.isHostOp = true → s.devs[i.slot]? = some v → frames s.trace = some fs →
    (accepted s.cfg s.nDev i = true → ∃ (t : State) (v' : Dev) (new : List Frame), exec i s = .next t ∧
      t.devs[i.slot]? = some v' ∧ v'.am = nextMode v.am i ∧ frames t.trace = some (fs ++ new) ∧
      sentModeCommands s.cfg new = tableModeCommands s.cfg v.am i) ∧
    (accepted s.cfg s.nDev i = false → ∃ t : State, exec i s = .next t ∧ t.devs = s.devs ∧ t.trace = s.trace)

/-- R132, the spec's own inference from R126 and R127: the two display-control setters commute on the final byte and
registers, the first frame of each order carries the old value of the field not yet set, and each setter repeated
changes no register and sends the same byte again. -/
def Obligations.DisplaySettersCommute : Prop :=
  ∀ (d : Nat) (w : Byte) (on : Bool) (s : State) (v : Dev), s.busy = false → s.devs[d]? = some v →
    ∃ (p pd pdd q qp qpp : State) (pw : BitVec 3) (last : List Event), pw.toNat = w.toNat % 8 ∧
      last = writeFrameEvents s.cfg d (encDisp s.cfg on pw) [] ∧
      exec (.setPulse d w) s = .next p ∧ exec (.setDisplay d on) p = .next pd ∧
      exec (.setDisplay d on) s = .next q ∧ exec (.setPulse d w) q = .next qp ∧
      pd.devs = s.devs.set d { v with don := on, pw := pw } ∧ qp.devs = pd.devs ∧
      p.trace = s.trace ++ writeFrameEvents s.cfg d (encDisp s.cfg v.don pw) [] ∧ pd.trace = p.trace ++ last ∧
      q.trace = s.trace ++ writeFrameEvents s.cfg d (encDisp s.cfg on v.pw) [] ∧ qp.trace = q.trace ++ last ∧
      exec (.setDisplay d on) pd = .next pdd ∧ pdd.devs = pd.devs ∧ pdd.trace = pd.trace ++ last ∧
      exec (.setPulse d w) qp = .next qpp ∧ qpp.devs = qp.devs ∧ qpp.trace = qp.trace ++ last

/-- R106, the spec's own inference: the display-control byte of a slot is a function of its two registers alone; right
after reset it is `0x84` with the defaults; and what each setter sends is the byte of the registers it leaves. -/
def Obligations.DisplayControlByteFollowsTheRegisters : Prop :=
  (∀ (d : Nat) (s s' : State) (v v' : Dev), s'.cfg = s.cfg → s.devs[d]? = some v → s'.devs[d]? = some v' →
    v.don = v'.don → v.pw = v'.pw → displayControl d s = displayControl d s') ∧
  (∀ d n : Nat, d < n → displayControl d (State.powerOn Config.tm1638 n) = 0x84) ∧
  (∀ (d : Nat) (i : Instr) (on : Bool) (w : Byte) (s t : State), d < s.nDev →
    i = .setDisplay d on ∨ i = .setPulse d w → exec i s = .next t →
    t.trace = s.trace ++ writeFrameEvents s.cfg d (displayControl d t) [])

/-- R90, in part the spec's own inference from R84 to R88 (for a wire command run alone the model's choice,
notes/assumptions/6.md): the latches after any frame, by the command byte or the last payload byte it ended with,
and before the first frame after reset. -/
def Obligations.LatchesAfterAFrame : Prop :=
  (∀ (i : Instr) (s t : State), s.cfg.bytesOk = true → accepted s.cfg s.nDev i = true → (∀ d, i ≠ .attach d) →
    exec i s = .next t →
    t.pins.clk = false ∧ t.pins.stb = s.pins.stb.set i.slot true ∧
    (∀ d, i = .reset d ∨ i = .dataInc d ∨ i = .dataFixed d → t.pins.dio = false) ∧
    (∀ d m, i = .mode d m ∨ i = .setMode d m → t.pins.dio = false) ∧
    (∀ d don pw w, i = .disp d don pw ∨ i = .setPulse d w ∨ i = .setDisplay d don → t.pins.dio = true) ∧
    (∀ d, i = .readKey d ∨ i = .dataRead d → t.pins.dio = true) ∧
    (∀ d a a', i = .displayAuto d a [] ∨ i = .addr d a' [] → t.pins.dio = true) ∧
    (∀ d a a' p b, i = .displayAuto d a (p ++ [b]) ∨ i = .addr d a' (p ++ [b]) ∨ i = .displayFixed d a b →
      t.pins.dio = b.getLsbD 7)) ∧
  (∀ (cfg : Config) (n : Nat), (State.powerOn cfg n).pins.clk = true ∧ (State.powerOn cfg n).pins.dio = true)

/-- R56 and R162 (for a wire command run alone the model's choice, notes/assumptions/6.md): an instruction on one slot
leaves the shadow registers and the select latch of every other slot. -/
def Obligations.OtherSlotsAreUntouched : Prop :=
  ∀ (i : Instr) (s t : State) (e : Nat), exec i s = .next t → e ≠ i.slot →
    t.devs[e]? = s.devs[e]? ∧ t.pins.stb[e]? = s.pins.stb[e]?

/-- R130, the spec's own inference (for a wire command run alone the model's choice, notes/assumptions/6.md): the events
of an instruction are a function of its operands, the parameters and the shadow registers, but for the answers
inside the samples; and so are the registers after it. -/
def Obligations.SamplesDecideNothing : Prop :=
  ∀ (i : Instr) (s s' : State), s.busy = false → s'.busy = false → s'.cfg = s.cfg → s'.devs = s.devs →
    ∃ (t t' : State) (es es' : List Event), exec i s = .next t ∧ exec i s' = .next t' ∧
      t.trace = s.trace ++ es ∧ t'.trace = s'.trace ++ es' ∧
      es.map Event.shape = es'.map Event.shape ∧ t'.devs = t.devs

/-! ### Invariants that every step keeps -/

/-- R27 (a), R29, R30: between operations the block is not busy and every select latch is high. -/
def Obligations.StepKeepsTheBlockQuiescent : Prop :=
  ∀ s t : State, Quiescent s → step s = .next t → Quiescent t

/-- R24 to R27, R83, R94: the latches are what the pin writes of the trace leave, and every event of the trace keeps the
discipline of the lines. -/
def Obligations.StepKeepsTheLineDiscipline : Prop :=
  ∀ s t : State, Quiescent s → LinesLawful s → step s = .next t → LinesLawful t

/-- R27 (b), (c), the spec's own inference from R86 to R89: at every point of a trace that keeps the discipline at most
one select latch is low, and the clock and data latches change only while exactly one is. -/
def Obligations.AtMostOneChipIsSelected : Prop :=
  ∀ s : State, LinesLawful s → ∀ k : Nat,
    lowSelects (applyEvents (Pins.initial s.nDev) (s.trace.take k)) ≤ 1 ∧
    (∀ p p', p = applyEvents (Pins.initial s.nDev) (s.trace.take k) →
      p' = applyEvents (Pins.initial s.nDev) (s.trace.take (k + 1)) →
      p'.clk ≠ p.clk ∨ p'.dio ≠ p.dio → lowSelects p = 1)

/-- R62, R68, R47 (R62 and R47 the spec's own inferences): the trace stays a whole number of frames of the three shapes,
each with a command byte the block can emit and a payload within the address space. -/
def Obligations.StepKeepsTheFramesLawful : Prop :=
  ∀ s t : State, FramesLawful s → step s = .next t → FramesLawful t

/-- R42, R152: every result stays one the block may return. -/
def Obligations.StepKeepsTheResultsLawful : Prop :=
  ∀ s t : State, ResultsLawful s → step s = .next t → ResultsLawful t

/-- R21, R22, R23: but for ATTACH, every host operation keeps the shadow registers a record of what the frames of the
trace commanded the chips. -/
def Obligations.HostOperationsKeepTheRecord : Prop :=
  ∀ (i : Instr) (s t : State), s.cfg.bytesOk = true → i.isHostOp = true → (∀ d, i ≠ .attach d) →
    ShadowsRecord s → exec i s = .next t → ShadowsRecord t

/-! ### The far side of the wire -/

/-- R44, R51: when the environment answers with the bits of `KEY_BYTES` key bytes, least significant first, the key read
returns those bytes and takes exactly those answers. -/
def Obligations.KeyReadReturnsWhatTheChipPresents : Prop :=
  ∀ (d : Nat) (s : State) (keys : List Byte) (rest : List Bit), s.busy = false → d < s.nDev →
    keys.length = s.cfg.keyBytes → s.answers = keyAnswers keys ++ rest →
    ∃ t : State, exec (.readKey d) s = .next t ∧ t.results = s.results ++ [.okBytes keys] ∧ t.answers = rest

/-- R50, the purpose the spec gives the frames and no behaviour of the block (notes/assumptions/17.md): if the chip of
the slot is in the mode the shadow register records (an assumption, R174), the frames of DISPLAY_AUTO store byte `i`
at display register `a + i` and leave every other one, and the chip is in the mode the register then records. -/
def Obligations.DisplayAutoFillsTheDisplay : Prop :=
  ∀ (d : Nat) (a : Byte) (bytes : List Byte) (s : State) (v : Dev) (fs : List Frame) (c : Chip),
    s.cfg.wf = true → s.busy = false → s.devs[d]? = some v → frames s.trace = some fs →
    a.toNat < s.cfg.addrCount → a.toNat + bytes.length ≤ s.cfg.addrCount →
    c.display.length = s.cfg.addrCount → c.mode = some v.am →
    ∃ (t : State) (new : List Frame) (c' : Chip), exec (.displayAuto d a bytes) s = .next t ∧
      frames t.trace = some (fs ++ new) ∧ chipFrames s.cfg d c new = some c' ∧ c'.mode = some .increment ∧
      (c'.pointer = if a.toNat + bytes.length < s.cfg.addrCount then some (a.toNat + bytes.length) else none) ∧
      c'.on = c.on ∧ c'.width = c.width ∧ c'.multiplex = c.multiplex ∧
      ∀ k, c'.display[k]? =
        if a.toNat ≤ k ∧ k < a.toNat + bytes.length then bytes[k - a.toNat]? else c.display[k]?

/-- R50: under the same assumption (notes/assumptions/17.md) the frames of DISPLAY_FIXED store one byte at one display
register. -/
def Obligations.DisplayFixedStoresOneByte : Prop :=
  ∀ (d : Nat) (a b : Byte) (s : State) (v : Dev) (fs : List Frame) (c : Chip),
    s.cfg.wf = true → s.busy = false → s.devs[d]? = some v → frames s.trace = some fs →
    a.toNat < s.cfg.addrCount → c.display.length = s.cfg.addrCount → c.mode = some v.am →
    ∃ (t : State) (new : List Frame) (c' : Chip), exec (.displayFixed d a b) s = .next t ∧
      frames t.trace = some (fs ++ new) ∧ chipFrames s.cfg d c new = some c' ∧ c'.mode = some .fixed ∧
      c'.pointer = some a.toNat ∧ c'.on = c.on ∧ c'.width = c.width ∧ c'.multiplex = c.multiplex ∧
      ∀ k, c'.display[k]? = if k = a.toNat then some b else c.display[k]?

/-- R174, the spec's own inference, with the chip's side as notes/assumptions/17.md has it: where the chip is in another
mode than the shadow register records, the mode-setting frame is suppressed and the data is misplaced. A
DISPLAY_AUTO to a chip in fixed mode puts its whole payload on one address, where the last byte stays; a
DISPLAY_FIXED to a chip in auto-increment mode advances the address. -/
def Obligations.DisagreementMisplacesTheData : Prop :=
  ∀ (d : Nat) (a b : Byte) (bytes : List Byte) (s : State) (v : Dev) (fs : List Frame) (c : Chip),
    s.cfg.wf = true → s.busy = false → s.devs[d]? = some v → frames s.trace = some fs →
    a.toNat < s.cfg.addrCount → c.display.length = s.cfg.addrCount →
    (v.am = .increment → c.mode = some .fixed → a.toNat + bytes.length ≤ s.cfg.addrCount →
      ∃ (t : State) (new : List Frame) (c' : Chip), exec (.displayAuto d a bytes) s = .next t ∧
        frames t.trace = some (fs ++ new) ∧ chipFrames s.cfg d c new = some c' ∧ c'.mode = some .fixed ∧
        c'.pointer = some a.toNat ∧
        ∀ k, c'.display[k]? = if k = a.toNat ∧ bytes ≠ [] then bytes.getLast? else c.display[k]?) ∧
    (v.am = .fixed → c.mode = some .increment →
      ∃ (t : State) (new : List Frame) (c' : Chip), exec (.displayFixed d a b) s = .next t ∧
        frames t.trace = some (fs ++ new) ∧ chipFrames s.cfg d c new = some c' ∧ c'.mode = some .increment ∧
        (c'.pointer = if a.toNat + 1 < s.cfg.addrCount then some (a.toNat + 1) else none) ∧
        ∀ k, c'.display[k]? = if k = a.toNat then some b else c.display[k]?)

/-- R173: RESET brings the chip's addressing mode and the shadow register into agreement whatever the chip held, and
SET_DISPLAY and SET_PULSE do so for the display flag and the pulse width (the chip's side is the assumption of
notes/assumptions/17.md). -/
def Obligations.ResetAndSettersBringAgreement : Prop :=
  ∀ (d : Nat) (on : Bool) (w : Byte) (i : Instr) (s : State) (v : Dev) (fs : List Frame) (c : Chip),
    s.cfg.bytesOk = true → s.busy = false → s.devs[d]? = some v → frames s.trace = some fs →
    i = .reset d ∨ i = .setDisplay d on ∨ i = .setPulse d w →
    ∃ (t : State) (v' : Dev) (new : List Frame) (c' : Chip), exec i s = .next t ∧ t.devs[d]? = some v' ∧
      frames t.trace = some (fs ++ new) ∧ chipFrames s.cfg d c new = some c' ∧ c'.display = c.display ∧
      (i = .reset d → c'.mode = some v'.am) ∧
      (i ≠ .reset d → c'.on = v'.don ∧ c'.width = v'.pw)
end

