-- ==== Sys2Proof/Laws/Bits.lean ====
section
/-! SUPPORT. The bits of a byte and the byte of eight bits are inverse to each other (R43, R44, R85), and what the
encoder's bytes are. -/

namespace Sys2Proof

@[simp] theorem byteBits_length (v : Byte) : (byteBits v).length = 8 := rfl

/-- A byte is the byte of its bits. -/
@[simp] theorem byteOfBits_byteBits (v : Byte) : byteOfBits (byteBits v) = v := by
  revert v; decide +kernel

/-- Eight bits are the bits of their byte. -/
theorem byteBits_byteOfBits (bs : List Bit) (h : bs.length = 8) : byteBits (byteOfBits bs) = bs := by
  obtain ⟨a, b, c, d, e, f, g, i, rfl⟩ : ∃ a b c d e f g i, bs = [a, b, c, d, e, f, g, i] := by
    match bs, h with
    | [a, b, c, d, e, f, g, i], _ => exact ⟨a, b, c, d, e, f, g, i, rfl⟩
  revert a b c d e f g i; decide +kernel

end Sys2Proof
end

