-- ==== Sys2Proof/Laws/Chip.lean ====
section
/-! SUPPORT. Everything a payload does to a chip (R50, R174), one lemma for each addressing mode. -/

namespace Sys2Proof.Machine

/-- In auto-increment mode, byte `i` of a payload that fits goes to display register `p + i`; every other register and
the rest of the chip stay, and the pointer stands behind the last byte, unknown past the last address. -/
theorem Chip.storeAll_increment {c : Chip} {p : Nat} (bs : List Byte) (hp : c.pointer = some p)
    (hm : c.mode = some .increment) (hl : p < c.display.length) (h : p + bs.length ≤ c.display.length) :
    ∃ display, display.length = c.display.length ∧
      (∀ k, display[k]? = if p ≤ k ∧ k < p + bs.length then bs[k - p]? else c.display[k]?) ∧
      c.storeAll bs = some { c with
        display := display
        pointer := if p + bs.length < c.display.length then some (p + bs.length) else none } := by
  induction bs generalizing c p with
  | nil =>
    refine ⟨c.display, rfl, fun k => by rw [if_neg]; simp only [List.length_nil]; omega, ?_⟩
    simp [Chip.storeAll, hl, ← hp]
  | cons b bs ih =>
    simp only [List.length_cons] at h ⊢
    have hs : c.store b = some { c with
        display := c.display.set p b
        pointer := if p + 1 < c.display.length then some (p + 1) else none } := by
      simp [Chip.store, hp, hm, hl]
    cases bs with
    | nil =>
      refine ⟨c.display.set p b, by simp, fun k => ?_, by rw [Chip.storeAll, hs]; rfl⟩
      simp only [List.length_nil, List.getElem?_set, hl, if_true]
      by_cases hk : p = k
      · subst hk; simp
      · rw [if_neg hk, if_neg]; omega
    | cons b' bs =>
      simp only [List.length_cons] at h
      have hq : p + 1 < c.display.length := by omega
      rw [if_pos hq] at hs
      obtain ⟨display, h1, h2, h3⟩ := ih (c := { c with display := c.display.set p b, pointer := some (p + 1) })
        rfl hm (by simpa using hq) (by simp only [List.length_set, List.length_cons]; omega)
      refine ⟨display, by simpa using h1, fun k => ?_, ?_⟩
      · rw [h2]
        simp only [List.length_cons, List.getElem?_set, hl, if_true]
        by_cases hk : p = k
        · subst hk; simp
        · by_cases hr : p + 1 ≤ k ∧ k < p + 1 + (bs.length + 1)
          · rw [if_pos hr, if_pos (by omega)]
            obtain ⟨n, rfl⟩ := Nat.exists_eq_add_of_le hr.1
            rw [show p + 1 + n - (p + 1) = n by omega, show p + 1 + n - p = n + 1 by omega, List.getElem?_cons_succ]
          · rw [if_neg hr, if_neg hk, if_neg (by omega)]
      · rw [Chip.storeAll, hs, Option.bind_some, h3]
        simp only [List.length_set, List.length_cons]
        rw [show p + 1 + (bs.length + 1) = p + (bs.length + 1 + 1) by omega]

/-- In fixed mode every byte of a payload goes to the one display register at the pointer, where the last one stays. -/
theorem Chip.storeAll_fixed {c : Chip} {p : Nat} (bs : List Byte) (hp : c.pointer = some p)
    (hm : c.mode = some .fixed) (hl : p < c.display.length) :
    c.storeAll bs = some { c with display := match bs.getLast? with
      | some b => c.display.set p b
      | none => c.display } := by
  induction bs generalizing c with
  | nil => rfl
  | cons b bs ih =>
    have hs : c.store b = some { c with display := c.display.set p b } := by simp [Chip.store, hp, hm, hl]
    rw [Chip.storeAll, hs, Option.bind_some, ih (c := { c with display := c.display.set p b }) hp hm (by simpa using hl)]
    cases bs with
    | nil => rfl
    | cons b' bs =>
      obtain ⟨x, hx⟩ : ∃ x, (b' :: bs).getLast? = some x := ⟨_, List.getLast?_eq_some_getLast (by simp)⟩
      rw [List.getLast?_cons_cons]
      simp only [hx, List.set_set]

end Sys2Proof.Machine
end

