-- ==== Sys2Proof/Laws/Encoding.lean ====
section
/-! SUPPORT. The encoder's bytes class by class and its inverse: `Dec(Enc_X(operands)) = X(operands)` (R107, R108). -/

namespace Sys2Proof

/-- What an accepted configuration says of its command-byte parameters (U13). -/
theorem bytesOk_elim {cfg : Config} (h : cfg.bytesOk = true) :
    cfg.cmdDataInc.extractLsb' 6 2 = 1 ∧ cfg.cmdDataFixed.extractLsb' 6 2 = 1 ∧ cfg.cmdDataRead.extractLsb' 6 2 = 1 ∧
    cfg.cmdDataInc ≠ cfg.cmdDataFixed ∧ cfg.cmdDataInc ≠ cfg.cmdDataRead ∧ cfg.cmdDataFixed ≠ cfg.cmdDataRead ∧
    cfg.dispOnBit = 8 := by
  simpa [Config.bytesOk, and_assoc] using h

/-- What an accepted configuration says of the address space (R6, U11). -/
theorem addrCount_le_of_wf {cfg : Config} (h : cfg.wf = true) : cfg.addrCount ≤ 16 := by
  simp only [Config.wf, Config.variantOk, Bool.and_eq_true] at h
  obtain ⟨h, -⟩ := h
  split at h <;> simp at h <;> omega

theorem bytesOk_of_wf {cfg : Config} (h : cfg.wf = true) : cfg.bytesOk = true := by
  simp only [Config.wf, Bool.and_eq_true] at h
  exact h.2

/-- A byte of the data class is no mode byte (R61). -/
theorem dataClass_not_mode {c : Byte} (h : c.extractLsb' 6 2 = 1) : ¬ (c &&& 0xFC = 0x00) := by
  revert c; decide +kernel

/-- A byte of another class than 01 is none of the three data instructions (R107). -/
theorem ne_data_of_class {cfg : Config} (h : cfg.bytesOk = true) {c : Byte} (hc : c.extractLsb' 6 2 ≠ 1) :
    c ≠ cfg.cmdDataInc ∧ c ≠ cfg.cmdDataFixed ∧ c ≠ cfg.cmdDataRead := by
  obtain ⟨h1, h2, h3, -⟩ := bytesOk_elim h
  refine ⟨?_, ?_, ?_⟩ <;> rintro rfl <;> contradiction

/-- The layout of a mode byte (R63). -/
theorem encMode_layout : ∀ m : BitVec 2, encMode m &&& 0xFC = 0x00 ∧ (encMode m).extractLsb' 6 2 = 0 ∧
    (encMode m).extractLsb' 0 2 = m := by
  decide +kernel

/-- The layout of a display-control byte with the flag in bit 3 (R65). -/
theorem encDisp_layout {cfg : Config} (h : cfg.bytesOk = true) (don : Bool) (pw : BitVec 3) :
    ¬ (encDisp cfg don pw &&& 0xFC = 0x00) ∧ (encDisp cfg don pw).extractLsb' 6 2 = 2 ∧
    encDisp cfg don pw &&& 0xF0 = 0x80 ∧ (encDisp cfg don pw).getLsbD 3 = don ∧
    (encDisp cfg don pw).extractLsb' 0 3 = pw := by
  obtain ⟨-, -, -, -, -, -, h7⟩ := bytesOk_elim h
  unfold encDisp
  rw [h7]
  clear h h7
  revert don pw
  decide +kernel

/-- The layout of an address byte (R66). -/
theorem encAddr_layout : ∀ a : BitVec 4, ¬ (encAddr (a.zeroExtend 8) &&& 0xFC = 0x00) ∧
    (encAddr (a.zeroExtend 8)).extractLsb' 6 2 = 3 ∧ ¬ encAddr (a.zeroExtend 8) &&& 0xF0 = 0x80 ∧
    encAddr (a.zeroExtend 8) &&& 0xF0 = 0xC0 ∧ (encAddr (a.zeroExtend 8)).extractLsb' 0 4 = a := by
  decide +kernel

/-- `Dec` inverts the encoder (R108). -/
theorem decodeCommand_encodeCommand (cfg : Config) (c : Command) (h : cfg.bytesOk = true) :
    decodeCommand cfg (encodeCommand cfg c) = some c := by
  obtain ⟨h1, h2, h3, h4, h5, h6, -⟩ := bytesOk_elim h
  cases c with
  | mode m =>
    obtain ⟨a1, -, a3⟩ := encMode_layout m
    rw [encodeCommand, decodeCommand, if_pos a1, a3]
  | dataInc => rw [encodeCommand, encDataInc, decodeCommand, if_neg (dataClass_not_mode h1), if_pos rfl]
  | dataFixed =>
    rw [encodeCommand, encDataFixed, decodeCommand, if_neg (dataClass_not_mode h2), if_neg h4.symm, if_pos rfl]
  | dataRead =>
    rw [encodeCommand, encDataRead, decodeCommand, if_neg (dataClass_not_mode h3), if_neg h5.symm, if_neg h6.symm,
      if_pos rfl]
  | addr a =>
    obtain ⟨a1, a2, a3, a4, a5⟩ := encAddr_layout a
    obtain ⟨n1, n2, n3⟩ := ne_data_of_class h (c := encAddr (a.zeroExtend 8)) (by rw [a2]; decide)
    rw [encodeCommand, decodeCommand, if_neg a1, if_neg n1, if_neg n2, if_neg n3, if_neg a3, if_pos a4, a5]
  | disp don pw =>
    obtain ⟨a1, a2, a3, a4, a5⟩ := encDisp_layout h don pw
    obtain ⟨n1, n2, n3⟩ := ne_data_of_class h (c := encDisp cfg don pw) (by rw [a2]; decide)
    rw [encodeCommand, decodeCommand, if_neg a1, if_neg n1, if_neg n2, if_neg n3, if_pos a3, a4, a5]

end Sys2Proof
end

