-- ==== Sys2Proof/Laws/State.lean ====
section
/-! SUPPORT. One lemma per field per update of the state, each true by unfolding, so that no later proof unfolds a
record update. -/

namespace Sys2Proof.Machine

variable (s : State)

@[simp] theorem emit_cfg (e : Event) : (emit e s).cfg = s.cfg := rfl
@[simp] theorem emit_devs (e : Event) : (emit e s).devs = s.devs := rfl
@[simp] theorem emit_pins (e : Event) : (emit e s).pins = applyEvent s.pins e := rfl
@[simp] theorem emit_busy (e : Event) : (emit e s).busy = s.busy := rfl
@[simp] theorem emit_seqPos (e : Event) : (emit e s).seqPos = s.seqPos.map (· + 1) := rfl
@[simp] theorem emit_trace (e : Event) : (emit e s).trace = s.trace ++ [e] := rfl
@[simp] theorem emit_results (e : Event) : (emit e s).results = s.results := rfl
@[simp] theorem emit_port (e : Event) : (emit e s).port = s.port := rfl
@[simp] theorem emit_answers (e : Event) : (emit e s).answers = s.answers := rfl
@[simp] theorem emit_samples (e : Event) : (emit e s).samples = s.samples := rfl

@[simp] theorem performed_cfg (es : List Event) : (performed es s).cfg = s.cfg := rfl
@[simp] theorem performed_devs (es : List Event) : (performed es s).devs = s.devs := rfl
@[simp] theorem performed_pins (es : List Event) : (performed es s).pins = applyEvents s.pins es := rfl
@[simp] theorem performed_busy (es : List Event) : (performed es s).busy = s.busy := rfl
@[simp] theorem performed_seqPos (es : List Event) : (performed es s).seqPos = s.seqPos.map (· + es.length) := rfl
@[simp] theorem performed_trace (es : List Event) : (performed es s).trace = s.trace ++ es := rfl
@[simp] theorem performed_results (es : List Event) : (performed es s).results = s.results := rfl
@[simp] theorem performed_port (es : List Event) : (performed es s).port = s.port := rfl
@[simp] theorem performed_answers (es : List Event) : (performed es s).answers = s.answers := rfl
@[simp] theorem performed_samples (es : List Event) : (performed es s).samples = s.samples := rfl

@[simp] theorem writeDev_cfg (d : Nat) (v : Dev) : (writeDev d v s).cfg = s.cfg := rfl
@[simp] theorem writeDev_devs (d : Nat) (v : Dev) : (writeDev d v s).devs = s.devs.set d v := rfl
@[simp] theorem writeDev_pins (d : Nat) (v : Dev) : (writeDev d v s).pins = s.pins := rfl
@[simp] theorem writeDev_busy (d : Nat) (v : Dev) : (writeDev d v s).busy = s.busy := rfl
@[simp] theorem writeDev_seqPos (d : Nat) (v : Dev) : (writeDev d v s).seqPos = s.seqPos := rfl
@[simp] theorem writeDev_trace (d : Nat) (v : Dev) : (writeDev d v s).trace = s.trace := rfl
@[simp] theorem writeDev_results (d : Nat) (v : Dev) : (writeDev d v s).results = s.results := rfl
@[simp] theorem writeDev_port (d : Nat) (v : Dev) : (writeDev d v s).port = s.port := rfl
@[simp] theorem writeDev_answers (d : Nat) (v : Dev) : (writeDev d v s).answers = s.answers := rfl
@[simp] theorem writeDev_samples (d : Nat) (v : Dev) : (writeDev d v s).samples = s.samples := rfl

@[simp] theorem configureSTB_cfg (d : Nat) : (configureSTB d s).cfg = s.cfg := rfl
@[simp] theorem configureSTB_devs (d : Nat) : (configureSTB d s).devs = s.devs := rfl
@[simp] theorem configureSTB_pins (d : Nat) : (configureSTB d s).pins = { s.pins with stb := s.pins.stb.set d true } := rfl
@[simp] theorem configureSTB_busy (d : Nat) : (configureSTB d s).busy = s.busy := rfl
@[simp] theorem configureSTB_seqPos (d : Nat) : (configureSTB d s).seqPos = s.seqPos := rfl
@[simp] theorem configureSTB_trace (d : Nat) : (configureSTB d s).trace = s.trace := rfl
@[simp] theorem configureSTB_results (d : Nat) : (configureSTB d s).results = s.results := rfl
@[simp] theorem configureSTB_port (d : Nat) : (configureSTB d s).port = s.port := rfl
@[simp] theorem configureSTB_answers (d : Nat) : (configureSTB d s).answers = s.answers := rfl
@[simp] theorem configureSTB_samples (d : Nat) : (configureSTB d s).samples = s.samples := rfl

@[simp] theorem accept_cfg : (accept s).cfg = s.cfg := rfl
@[simp] theorem accept_devs : (accept s).devs = s.devs := rfl
@[simp] theorem accept_pins : (accept s).pins = s.pins := rfl
@[simp] theorem accept_busy : (accept s).busy = true := rfl
@[simp] theorem accept_seqPos : (accept s).seqPos = some 0 := rfl
@[simp] theorem accept_trace : (accept s).trace = s.trace := rfl
@[simp] theorem accept_results : (accept s).results = s.results := rfl
@[simp] theorem accept_port : (accept s).port = s.port := rfl
@[simp] theorem accept_answers : (accept s).answers = s.answers := rfl
@[simp] theorem accept_samples : (accept s).samples = s.samples := rfl

@[simp] theorem complete_cfg (r : Result) : (complete r s).cfg = s.cfg := rfl
@[simp] theorem complete_devs (r : Result) : (complete r s).devs = s.devs := rfl
@[simp] theorem complete_pins (r : Result) : (complete r s).pins = s.pins := rfl
@[simp] theorem complete_busy (r : Result) : (complete r s).busy = false := rfl
@[simp] theorem complete_seqPos (r : Result) : (complete r s).seqPos = none := rfl
@[simp] theorem complete_trace (r : Result) : (complete r s).trace = s.trace := rfl
@[simp] theorem complete_results (r : Result) : (complete r s).results = s.results ++ [r] := rfl
@[simp] theorem complete_port (r : Result) : (complete r s).port = s.port := rfl
@[simp] theorem complete_answers (r : Result) : (complete r s).answers = s.answers := rfl
@[simp] theorem complete_samples (r : Result) : (complete r s).samples = s.samples := rfl

/-- The slots are as many before a register write as after it. -/
@[simp] theorem writeDev_nDev (d : Nat) (v : Dev) : (writeDev d v s).nDev = s.nDev := by
  simp [State.nDev]

end Sys2Proof.Machine
end

