-- ==== Sys2Proof/Laws/Ops.lean ====
section
/-! SUPPORT. One lemma per shared operation that says all it does: the transport performs the event lists of R84 to
R88, the samples are the upcoming answers, and the latches a frame leaves are those of R90. -/

namespace Sys2Proof.Machine

/-! ### Performing lists of events -/

theorem emit_eq_performed (e : Event) (s : State) : emit e s = performed [e] s := rfl

@[simp] theorem performed_nil (s : State) : performed [] s = s := by
  cases s with
  | mk cfg devs pins busy seqPos => cases seqPos <;> simp [performed, applyEvents]

/-- Two lists performed one after the other are their concatenation performed. -/
theorem performed_performed (es es' : List Event) (s : State) :
    performed es' (performed es s) = performed (es ++ es') s := by
  simp [performed, applyEvents, List.foldl_append, Option.map_map, Function.comp_def, Nat.add_assoc]

theorem applyEvents_append (p : Pins) (es es' : List Event) :
    applyEvents p (es ++ es') = applyEvents (applyEvents p es) es' := List.foldl_append

@[simp] theorem applyEvents_nil (p : Pins) : applyEvents p [] = p := rfl

@[simp] theorem applyEvents_cons (p : Pins) (e : Event) (es : List Event) :
    applyEvents p (e :: es) = applyEvents (applyEvent p e) es := rfl

/-! ### Sending (R84, R87) -/

theorem sendBit_eq (v : Bit) (s : State) : sendBit v s = performed (sentBitEvents s.cfg v) s := by
  simp [sendBit, pulse, setDIO, setCLK, delay, emit_eq_performed, performed_performed, sentBitEvents, pulseEvents]

theorem sendBits_eq (bs : List Bit) (s : State) :
    sendBits bs s = performed (bs.flatMap (sentBitEvents s.cfg)) s := by
  induction bs generalizing s with
  | nil => simp [sendBits]
  | cons b bs ih => simp [sendBits, ih, sendBit_eq, performed_performed]

/-- `SendByte` performs the events of R84. -/
theorem sendByte_eq (v : Byte) (s : State) : sendByte v s = performed (sentByteEvents s.cfg v) s :=
  sendBits_eq _ s

/-- A list of bytes is sent as the events of its bytes in order (R45). -/
theorem sendBytes_eq (vs : List Byte) (s : State) :
    sendBytes vs s = performed (vs.flatMap (sentByteEvents s.cfg)) s := by
  induction vs generalizing s with
  | nil => simp [sendBytes]
  | cons v vs ih => simp [sendBytes, ih, sendByte_eq, performed_performed]

/-- `WriteFrame` performs the events of R87. -/
theorem writeFrame_eq (d : Nat) (c : Byte) (p : List Byte) (s : State) :
    writeFrame d c p s = performed (writeFrameEvents s.cfg d c p) s := by
  simp [writeFrame, setSTB, emit_eq_performed, sendByte_eq, sendBytes_eq, performed_performed, writeFrameEvents]

/-- `CmdFrame` performs the events of R86: a write frame with no payload (R87). -/
theorem cmdFrame_eq (d : Nat) (c : Byte) (s : State) :
    cmdFrame d c s = performed (writeFrameEvents s.cfg d c []) s := by
  simp [cmdFrame, setSTB, emit_eq_performed, sendByte_eq, performed_performed, writeFrameEvents]

/-! ### Reading (R85, R88) -/

/-- The state whose environment has answered `n` more samples. -/
def answered (n : Nat) (s : State) : State :=
  { s with answers := s.answers.drop n, samples := s.samples + n }

theorem answered_answered (m n : Nat) (s : State) : answered n (answered m s) = answered (m + n) s := by
  simp [answered, List.drop_drop, Nat.add_assoc]

theorem answered_performed (n : Nat) (es : List Event) (s : State) :
    answered n (performed es s) = performed es (answered n s) := rfl

@[simp] theorem answered_cfg (n : Nat) (s : State) : (answered n s).cfg = s.cfg := rfl

@[simp] theorem answered_zero (s : State) : answered 0 s = s := rfl

@[simp] theorem upcomingBits_length (n : Nat) (as : List Bit) (k : Nat) : (upcomingBits n as k).length = n := by
  induction n generalizing as k with
  | zero => rfl
  | succ n ih => simp [upcomingBits, ih]

@[simp] theorem upcomingBytes_length (n : Nat) (as : List Bit) (k : Nat) : (upcomingBytes n as k).length = n := by
  induction n generalizing as k with
  | zero => rfl
  | succ n ih => simp [upcomingBytes, ih]

theorem readBit_eq (s : State) : readBit s = (nextAnswer s,
    performed (readBitEvents s.cfg (nextAnswer s)) (answered 1 s)) := by
  simp [readBit, sampleDIO, pulse, setCLK, delay, emit_eq_performed, performed_performed, readBitEvents, pulseEvents,
    answered]

theorem readBits_eq (n : Nat) (s : State) : readBits n s = (upcomingBits n s.answers s.samples,
    performed ((upcomingBits n s.answers s.samples).flatMap (readBitEvents s.cfg)) (answered n s)) := by
  induction n generalizing s with
  | zero => simp [readBits, upcomingBits]
  | succ n ih =>
    rw [readBits, readBit_eq, ih, answered_performed, performed_performed, answered_answered, Nat.add_comm 1 n]
    simp [upcomingBits, nextAnswer, answered]

/-- `ReadByte` returns the byte of the next eight answers and performs the events of R85. -/
theorem readByte_eq (s : State) :
    readByte s = (byteOfBits (upcomingBits 8 s.answers s.samples),
      performed (readByteEvents s.cfg (byteOfBits (upcomingBits 8 s.answers s.samples))) (answered 8 s)) := by
  rw [readByte, readBits_eq, readByteEvents, byteBits_byteOfBits _ (upcomingBits_length _ _ _)]

theorem readBytes_eq (n : Nat) (s : State) : readBytes n s = (upcomingBytes n s.answers s.samples,
    performed ((upcomingBytes n s.answers s.samples).flatMap (readByteEvents s.cfg)) (answered (8 * n) s)) := by
  induction n generalizing s with
  | zero => simp [readBytes, upcomingBytes]
  | succ n ih =>
    rw [readBytes, readByte_eq, ih, answered_performed, performed_performed, answered_answered,
      show 8 + 8 * n = 8 * (n + 1) by omega]
    simp [upcomingBytes, answered]

/-- `ReadFrame` returns the bytes of the next answers and performs the events of R88. -/
theorem readFrame_eq (d : Nat) (c : Byte) (n : Nat) (s : State) :
    readFrame d c n s = (upcomingBytes n s.answers s.samples,
      performed (readFrameEvents s.cfg d c (upcomingBytes n s.answers s.samples)) (answered (8 * n) s)) := by
  simp [readFrame, setSTB, setDIO, delay, emit_eq_performed, sendByte_eq, readBytes_eq, performed_performed,
    answered_performed, readFrameEvents]

/-! ### The latches a frame leaves (R90) and how long a frame is (R84 to R88) -/

theorem applyEvents_sentByte (cfg : Config) (p : Pins) (v : Byte) :
    applyEvents p (sentByteEvents cfg v) = { p with clk := false, dio := v.getLsbD 7 } := by
  simp [sentByteEvents, byteBits, sentBitEvents, pulseEvents, applyEvent]

theorem applyEvents_sentBytes (cfg : Config) (p : Pins) (v : Byte) (vs : List Byte) :
    applyEvents p ((v :: vs).flatMap (sentByteEvents cfg)) =
      { p with clk := false, dio := (vs.getLastD v).getLsbD 7 } := by
  induction vs generalizing p v with
  | nil => simp [applyEvents_sentByte]
  | cons w ws ih =>
    rw [List.flatMap_cons, applyEvents_append, applyEvents_sentByte, ih]
    simp [List.getLast?_cons]

theorem applyEvents_readByte (cfg : Config) (p : Pins) (v : Byte) :
    applyEvents p (readByteEvents cfg v) = { p with clk := false } := by
  simp [readByteEvents, byteBits, readBitEvents, pulseEvents, applyEvent]

theorem applyEvents_readBytes (cfg : Config) (p : Pins) (vs : List Byte) (h : p.clk = false) :
    applyEvents p (vs.flatMap (readByteEvents cfg)) = p := by
  induction vs generalizing p with
  | nil => rfl
  | cons v vs ih =>
    obtain ⟨clk, dio, stb⟩ := p
    simp only at h
    subst h
    rw [List.flatMap_cons, applyEvents_append, applyEvents_readByte]
    exact ih _ rfl

/-- The latches after a command or write frame (R90). -/
theorem applyEvents_writeFrame (cfg : Config) (p : Pins) (d : Nat) (c : Byte) (vs : List Byte) :
    applyEvents p (writeFrameEvents cfg d c vs) =
      { clk := false, dio := (vs.getLastD c).getLsbD 7, stb := p.stb.set d true } := by
  rw [writeFrameEvents, applyEvents_append]
  rw [applyEvents_cons p (Event.stb d false), applyEvents_sentBytes]
  simp [applyEvent]

/-- The latches after a read frame: DIO stays released (R88, R90). -/
theorem applyEvents_readFrame (cfg : Config) (p : Pins) (d : Nat) (c : Byte) (out : List Byte) :
    applyEvents p (readFrameEvents cfg d c out) = { clk := false, dio := true, stb := p.stb.set d true } := by
  rw [readFrameEvents, applyEvents_append, applyEvents_append, applyEvents_append]
  rw [applyEvents_cons p (Event.stb d false), applyEvents_sentByte, applyEvents_readBytes]
  · simp [applyEvent]
  · simp [applyEvent]

@[simp] theorem sentByteEvents_length (cfg : Config) (v : Byte) : (sentByteEvents cfg v).length = 40 := rfl

@[simp] theorem readByteEvents_length (cfg : Config) (v : Byte) : (readByteEvents cfg v).length = 40 := rfl

/-- A write frame has `2 + 40 * (1 + n)` events (R87). -/
theorem writeFrameEvents_length (cfg : Config) (d : Nat) (c : Byte) (vs : List Byte) :
    (writeFrameEvents cfg d c vs).length = 42 + 40 * vs.length := by
  simp [writeFrameEvents, List.length_flatMap]
  omega

/-- A read frame of `n` bytes has `44 + 40 * n` events (R88). -/
theorem readFrameEvents_length (cfg : Config) (d : Nat) (c : Byte) (out : List Byte) :
    (readFrameEvents cfg d c out).length = 44 + 40 * out.length := by
  simp [readFrameEvents, List.length_flatMap]
  omega

/-! ### Shadow registers -/

/-- The shadow registers of a slot that exists. -/
theorem readDev_eq (d : Nat) (s : State) (h : d < s.nDev) : readDev d s = s.devs[d] := by
  simp [readDev, List.getD_eq_getElem?_getD, h]

/-- A register written is read back. -/
theorem readDev_writeDev (d : Nat) (v : Dev) (s : State) (h : d < s.nDev) : readDev d (writeDev d v s) = v := by
  simp [readDev, List.getD_eq_getElem?_getD, h]

/-- A register write leaves every other slot alone (R56). -/
theorem readDev_writeDev_other (d e : Nat) (v : Dev) (s : State) (h : e ≠ d) :
    readDev e (writeDev d v s) = readDev e s := by
  simp [readDev, List.getD_eq_getElem?_getD, List.getElem?_set_ne (Ne.symm h)]

/-- Performing events reads and writes no shadow register. -/
@[simp] theorem readDev_performed (d : Nat) (es : List Event) (s : State) :
    readDev d (performed es s) = readDev d s := rfl

theorem writeDev_performed (d : Nat) (v : Dev) (es : List Event) (s : State) :
    writeDev d v (performed es s) = performed es (writeDev d v s) := rfl

/-- The mode-setting frame of R131: none when the register records the mode, and the register records it after. -/
theorem enterMode_eq (d : Nat) (m : AddressMode) (s : State) :
    enterMode d m s =
      if (readDev d s).am = m then s
      else performed (writeFrameEvents s.cfg d (modeByte s.cfg m) []) (writeAm d m s) := by
  simp [enterMode, cmdFrame_eq, writeAm, writeDev_performed]

/-! ### How an operation runs (R120) -/

/-- An operation that finds the block busy has no step (D3). -/
theorem operation_busy (failed : Option ErrorKind) (body : State → Result × State) (s : State) (h : s.busy = true) :
    operation failed body s = .fault .operationWhileBusy := by simp [operation, h]

/-- An operation whose check fails returns the error and does nothing else (R154). -/
theorem operation_failed (kind : ErrorKind) (body : State → Result × State) (s : State) (h : s.busy = false) :
    operation (some kind) body s = .next (complete (.error kind) (accept s)) := by simp [operation, h]

/-- An operation whose checks pass runs its body and returns its result (R120). -/
theorem operation_passed (body : State → Result × State) (s : State) (h : s.busy = false) :
    operation none body s = .next (complete (body (accept s)).1 (body (accept s)).2) := by simp [operation, h]

/-- All that an operation can do. -/
theorem operation_cases (failed : Option ErrorKind) (body : State → Result × State) (s : State) :
    (s.busy = true ∧ operation failed body s = .fault .operationWhileBusy) ∨
    (s.busy = false ∧ (∃ kind, failed = some kind ∧
      operation failed body s = .next (complete (.error kind) (accept s)))) ∨
    (s.busy = false ∧ failed = none ∧
      operation failed body s = .next (complete (body (accept s)).1 (body (accept s)).2)) := by
  cases hb : s.busy <;> cases failed <;> simp [operation, hb]

@[simp] theorem require_true : require true = none := rfl
@[simp] theorem require_false : require false = some .invalidArgument := rfl

end Sys2Proof.Machine
end

