-- ==== Sys2Proof/Laws/Trace.lean ====
section
/-! SUPPORT. What the frame abstraction reads from the event lists of the three frame shapes (R70, R92), and that those
lists keep the discipline of the lines (R27, R83, R94). -/

namespace Sys2Proof.Machine

/-! ### The frame abstraction -/

theorem readEvents_append (c : Cursor) (es es' : List Event) :
    readEvents c (es ++ es') = (readEvents c es).bind fun c' => readEvents c' es' := by
  simp [readEvents, List.foldlM_append]

theorem readEvents_nil (c : Cursor) : readEvents c [] = some c := rfl

/-- A cursor inside a frame, between bytes. -/
def betweenBytes (done : List Frame) (d : Nat) (sent read : List Byte) (sampling : Bool) : Cursor :=
  { done := done
    cur := some { slot := d, sent := sent, read := read, bits := [], sampling := sampling, beat := .ready } }

/-- The events of a bit sent add that bit to the byte in progress. -/
theorem readEvents_sentBit (cfg : Config) (done : List Frame) (f : OpenFrame) (v : Bit)
    (hb : f.beat = .ready) (hs : f.bits = [] ∨ f.sampling = false) :
    readEvents ⟨done, some f⟩ (sentBitEvents cfg v) =
      some ⟨done, some (closeBit { f with bits := f.bits ++ [v], sampling := false, beat := .low })⟩ := by
  obtain ⟨slot, sent, read, bits, sampling, beat⟩ := f
  simp only at hb hs
  subst hb
  simp [readEvents, sentBitEvents, pulseEvents, frameStep, insideStep, hs]

/-- The events of eight bits sent are read as their byte. -/
theorem readEvents_sentBits (cfg : Config) (done : List Frame) (d : Nat) (sent read : List Byte) (sampling : Bool)
    (b₀ b₁ b₂ b₃ b₄ b₅ b₆ b₇ : Bit) :
    readEvents (betweenBytes done d sent read sampling)
        ([b₀, b₁, b₂, b₃, b₄, b₅, b₆, b₇].flatMap (sentBitEvents cfg)) =
      some (betweenBytes done d (sent ++ [byteOfBits [b₀, b₁, b₂, b₃, b₄, b₅, b₆, b₇]]) read false) := by
  simp only [betweenBytes, List.flatMap_cons, List.flatMap_nil, readEvents_append]
  simp [readEvents_sentBit, closeBit, readEvents_nil]

/-- The events of a byte sent are read as that byte. -/
theorem readEvents_sentByte (cfg : Config) (done : List Frame) (d : Nat) (sent read : List Byte) (sampling : Bool)
    (v : Byte) :
    readEvents (betweenBytes done d sent read sampling) (sentByteEvents cfg v) =
      some (betweenBytes done d (sent ++ [v]) read false) := by
  have h := readEvents_sentBits cfg done d sent read sampling (v.getLsbD 0) (v.getLsbD 1) (v.getLsbD 2)
    (v.getLsbD 3) (v.getLsbD 4) (v.getLsbD 5) (v.getLsbD 6) (v.getLsbD 7)
  have hv := byteOfBits_byteBits v
  rw [byteBits] at hv
  rw [hv] at h
  rw [sentByteEvents, byteBits]
  exact h

/-- The events of a bit read add that bit to the byte in progress. -/
theorem readEvents_readBit (cfg : Config) (done : List Frame) (f : OpenFrame) (v : Bit)
    (hb : f.beat = .ready) (hs : f.bits = [] ∨ f.sampling = true) :
    readEvents ⟨done, some f⟩ (readBitEvents cfg v) =
      some ⟨done, some (closeBit { f with bits := f.bits ++ [v], sampling := true, beat := .low })⟩ := by
  obtain ⟨slot, sent, read, bits, sampling, beat⟩ := f
  simp only at hb hs
  subst hb
  simp [readEvents, readBitEvents, pulseEvents, frameStep, insideStep, hs]

/-- The events of eight bits read are read as their byte. -/
theorem readEvents_readBits (cfg : Config) (done : List Frame) (d : Nat) (sent read : List Byte) (sampling : Bool)
    (b₀ b₁ b₂ b₃ b₄ b₅ b₆ b₇ : Bit) :
    readEvents (betweenBytes done d sent read sampling)
        ([b₀, b₁, b₂, b₃, b₄, b₅, b₆, b₇].flatMap (readBitEvents cfg)) =
      some (betweenBytes done d sent (read ++ [byteOfBits [b₀, b₁, b₂, b₃, b₄, b₅, b₆, b₇]]) true) := by
  simp only [betweenBytes, List.flatMap_cons, List.flatMap_nil, readEvents_append]
  simp [readEvents_readBit, closeBit, readEvents_nil]

/-- The events of a byte read are read as that byte. -/
theorem readEvents_readByte (cfg : Config) (done : List Frame) (d : Nat) (sent read : List Byte) (sampling : Bool)
    (v : Byte) :
    readEvents (betweenBytes done d sent read sampling) (readByteEvents cfg v) =
      some (betweenBytes done d sent (read ++ [v]) true) := by
  have h := readEvents_readBits cfg done d sent read sampling (v.getLsbD 0) (v.getLsbD 1) (v.getLsbD 2)
    (v.getLsbD 3) (v.getLsbD 4) (v.getLsbD 5) (v.getLsbD 6) (v.getLsbD 7)
  have hv := byteOfBits_byteBits v
  rw [byteBits] at hv
  rw [hv] at h
  rw [readByteEvents, byteBits]
  exact h

theorem readEvents_sentBytes (cfg : Config) (done : List Frame) (d : Nat) (sent read : List Byte) (v : Byte)
    (vs : List Byte) (sampling : Bool) :
    readEvents (betweenBytes done d sent read sampling) ((v :: vs).flatMap (sentByteEvents cfg)) =
      some (betweenBytes done d (sent ++ v :: vs) read false) := by
  induction vs generalizing v sent sampling with
  | nil => simp [readEvents_sentByte]
  | cons w ws ih =>
    rw [List.flatMap_cons, readEvents_append, readEvents_sentByte, Option.bind_some, ih]
    simp

theorem readEvents_readBytes (cfg : Config) (done : List Frame) (d : Nat) (sent read vs : List Byte) :
    readEvents (betweenBytes done d sent read true) (vs.flatMap (readByteEvents cfg)) =
      some (betweenBytes done d sent (read ++ vs) true) := by
  induction vs generalizing read with
  | nil => simp [readEvents]
  | cons v vs ih =>
    rw [List.flatMap_cons, readEvents_append, readEvents_readByte, Option.bind_some, ih]
    simp

theorem readEvents_readBytes_released (cfg : Config) (done : List Frame) (d : Nat) (sent vs : List Byte) :
    ∃ sampling, readEvents (betweenBytes done d sent [] false) (vs.flatMap (readByteEvents cfg)) =
      some (betweenBytes done d sent vs sampling) := by
  cases vs with
  | nil => exact ⟨false, by simp [readEvents]⟩
  | cons v vs =>
    refine ⟨true, ?_⟩
    rw [List.flatMap_cons, readEvents_append, readEvents_readByte, Option.bind_some, readEvents_readBytes]
    simp

/-- The end of a frame between bytes closes it. -/
theorem readEvents_close (done : List Frame) (d : Nat) (c : Byte) (sent read : List Byte) (sampling : Bool) :
    readEvents (betweenBytes done d (c :: sent) read sampling) [.stb d true] =
      some { done := done ++ [{ slot := d, sent := c :: sent, read := read }], cur := none } := by
  simp [readEvents, betweenBytes, frameStep]

/-- The start of a frame opens it. -/
theorem readEvents_open (done : List Frame) (d : Nat) (es : List Event) :
    readEvents { done := done, cur := none } (.stb d false :: es) =
      readEvents (betweenBytes done d [] [] false) es := by
  simp [readEvents, betweenBytes, frameStep]

/-- The events of a command or write frame are read as that frame. -/
theorem readEvents_writeFrame (cfg : Config) (done : List Frame) (d : Nat) (c : Byte) (p : List Byte) :
    readEvents { done := done, cur := none } (writeFrameEvents cfg d c p) =
      some { done := done ++ [{ slot := d, sent := c :: p, read := [] }], cur := none } := by
  rw [writeFrameEvents, readEvents_append, readEvents_open, readEvents_sentBytes, Option.bind_some]
  exact readEvents_close _ _ _ _ _ _

/-- The events of a read frame are read as that frame. -/
theorem readEvents_readFrame (cfg : Config) (done : List Frame) (d : Nat) (c : Byte) (out : List Byte) :
    readEvents { done := done, cur := none } (readFrameEvents cfg d c out) =
      some { done := done ++ [{ slot := d, sent := [c], read := out }], cur := none } := by
  obtain ⟨sampling, h⟩ := readEvents_readBytes_released cfg done d [c] out
  have hr : readEvents (betweenBytes done d [c] [] false) [.dio true, .delay cfg.tGuard] =
      some (betweenBytes done d [c] [] false) := by
    simp [readEvents, betweenBytes, frameStep, insideStep]
  rw [readFrameEvents, readEvents_append, readEvents_append, readEvents_append, readEvents_open,
    readEvents_sentByte, Option.bind_some, List.nil_append, hr, Option.bind_some, h, Option.bind_some]
  exact readEvents_close _ _ _ _ _ _

/-- A trace that is a whole number of frames, as the reader of traces sees it. -/
theorem frames_eq_some (es : List Event) (fs : List Frame) :
    frames es = some fs ↔ readEvents { done := [], cur := none } es = some { done := fs, cur := none } := by
  unfold frames
  constructor
  · intro h
    split at h
    · simp_all
    · simp at h
  · intro h
    simp [h]

/-- No event, no frame. -/
@[simp] theorem frames_nil : frames [] = some [] := rfl

/-- A command or write frame after a whole number of frames is one frame more. -/
theorem frames_append_writeFrame (cfg : Config) (es : List Event) (fs : List Frame) (d : Nat) (c : Byte)
    (p : List Byte) (h : frames es = some fs) :
    frames (es ++ writeFrameEvents cfg d c p) = some (fs ++ [{ slot := d, sent := c :: p, read := [] }]) := by
  rw [frames_eq_some] at h ⊢
  rw [readEvents_append, h, Option.bind_some, readEvents_writeFrame]

/-- A read frame after a whole number of frames is one frame more. -/
theorem frames_append_readFrame (cfg : Config) (es : List Event) (fs : List Frame) (d : Nat) (c : Byte)
    (out : List Byte) (h : frames es = some fs) :
    frames (es ++ readFrameEvents cfg d c out) = some (fs ++ [{ slot := d, sent := [c], read := out }]) := by
  rw [frames_eq_some] at h ⊢
  rw [readEvents_append, h, Option.bind_some, readEvents_readFrame]

/-! ### The discipline of the lines -/

theorem busLawful_append (p : Pins) (es es' : List Event) :
    busLawful p (es ++ es') = (busLawful p es && busLawful (applyEvents p es) es') := by
  induction es generalizing p with
  | nil => simp [busLawful]
  | cons e es ih => simp [busLawful, ih, Bool.and_assoc]

@[simp] theorem lowSelects_clk (p : Pins) (v : Bit) : lowSelects { p with clk := v } = lowSelects p := rfl
@[simp] theorem lowSelects_dio (p : Pins) (v : Bit) : lowSelects { p with dio := v } = lowSelects p := rfl

/-- With every select high none is low. -/
@[simp] theorem lowSelects_idle (clk dio : Bit) (n : Nat) :
    lowSelects { clk := clk, dio := dio, stb := List.replicate n true } = 0 := by
  simp [lowSelects]

/-- With every select high but that of one slot, exactly one is low. -/
theorem lowSelects_selected (clk dio : Bit) (n d : Nat) (h : d < n) :
    lowSelects { clk := clk, dio := dio, stb := (List.replicate n true).set d false } = 1 := by
  simp [lowSelects, List.countP_set, h]

/-- Sending a byte needs one chip selected. -/
theorem busLawful_sentByte (cfg : Config) (p : Pins) (v : Byte) (h : lowSelects p = 1) :
    busLawful p (sentByteEvents cfg v) = true := by
  obtain ⟨clk, dio, stb⟩ := p
  have h' : ∀ a b, lowSelects { clk := a, dio := b, stb := stb } = 1 := fun a b => h
  simp [sentByteEvents, byteBits, sentBitEvents, pulseEvents, busLawful, eventAllowed, applyEvent, h']

theorem busLawful_sentBytes (cfg : Config) (p : Pins) (vs : List Byte) (h : lowSelects p = 1) :
    busLawful p (vs.flatMap (sentByteEvents cfg)) = true := by
  induction vs generalizing p with
  | nil => rfl
  | cons v vs ih =>
    rw [List.flatMap_cons, busLawful_append, busLawful_sentByte cfg p v h, Bool.true_and, applyEvents_sentByte]
    exact ih _ h

/-- Reading a byte needs one chip selected and DIO released. -/
theorem busLawful_readByte (cfg : Config) (p : Pins) (v : Byte) (h : lowSelects p = 1) (hd : p.dio = true) :
    busLawful p (readByteEvents cfg v) = true := by
  obtain ⟨clk, dio, stb⟩ := p
  have h' : ∀ a b, lowSelects { clk := a, dio := b, stb := stb } = 1 := fun a b => h
  simp only at hd
  subst hd
  simp [readByteEvents, byteBits, readBitEvents, pulseEvents, busLawful, eventAllowed, applyEvent, h']

theorem busLawful_readBytes (cfg : Config) (p : Pins) (vs : List Byte) (h : lowSelects p = 1) (hd : p.dio = true) :
    busLawful p (vs.flatMap (readByteEvents cfg)) = true := by
  induction vs generalizing p with
  | nil => rfl
  | cons v vs ih =>
    rw [List.flatMap_cons, busLawful_append, busLawful_readByte cfg p v h hd, Bool.true_and, applyEvents_readByte]
    exact ih _ h hd

/-- A command or write frame on a slot that exists keeps the discipline when no chip is selected before it. -/
theorem busLawful_writeFrame (cfg : Config) (clk dio : Bit) (n d : Nat) (c : Byte) (vs : List Byte) (h : d < n) :
    busLawful { clk := clk, dio := dio, stb := List.replicate n true } (writeFrameEvents cfg d c vs) = true := by
  have hsel := fun a b => lowSelects_selected a b n d h
  rw [writeFrameEvents, busLawful_append]
  rw [busLawful, applyEvents_cons _ (Event.stb d false), applyEvents_sentBytes]
  simp only [applyEvent]
  rw [busLawful_sentBytes _ _ _ (hsel clk dio)]
  simp [busLawful, eventAllowed, hsel, h]

/-- A read frame on a slot that exists keeps the discipline when no chip is selected before it. -/
theorem busLawful_readFrame (cfg : Config) (clk dio : Bit) (n d : Nat) (c : Byte) (out : List Byte) (h : d < n) :
    busLawful { clk := clk, dio := dio, stb := List.replicate n true } (readFrameEvents cfg d c out) = true := by
  have hsel := fun a b => lowSelects_selected a b n d h
  rw [readFrameEvents, busLawful_append, busLawful_append, busLawful_append]
  rw [busLawful, applyEvents_append, applyEvents_append, applyEvents_cons _ (Event.stb d false), applyEvents_sentByte]
  simp only [applyEvent, applyEvents_cons, applyEvents_nil]
  rw [busLawful_sentByte _ _ _ (hsel clk dio), busLawful_readBytes _ _ _ (hsel false true) rfl,
    applyEvents_readBytes _ _ _ rfl]
  simp [busLawful, eventAllowed, applyEvent, applyEvents_append, applyEvents_sentByte, hsel, h]

end Sys2Proof.Machine
end

