-- ==== Sys2Proof/Laws/Exec.lean ====
section
/-! SUPPORT. Everything an instruction can do, said once: it finds the block busy and has no step, or a check of its
operands fails and it returns the error, or it performs its events, writes the shadow registers of its slot and
returns its result (R120). Statements about instructions are derived from `exec_cases`. -/

namespace Sys2Proof.Machine

/-- The mode-setting events of R123 and R124. -/
def modeEvents (cfg : Config) (d : Nat) (m : AddressMode) (v : Dev) : List Event :=
  if v.am = m then [] else writeFrameEvents cfg d (modeByte cfg m) []

/-- The events of an accepted instruction, when its slot's shadow registers are `v` and a read frame returns `out`. -/
def instrEvents (cfg : Config) (v : Dev) (out : List Byte) : Instr → List Event
  | .mode d m => writeFrameEvents cfg d (encMode m) []
  | .dataInc d => writeFrameEvents cfg d (encDataInc cfg) []
  | .dataFixed d => writeFrameEvents cfg d (encDataFixed cfg) []
  | .dataRead d => readFrameEvents cfg d (encDataRead cfg) out
  | .addr d a payload => writeFrameEvents cfg d (encAddr (a.zeroExtend 8)) payload
  | .disp d don pw => writeFrameEvents cfg d (encDisp cfg don pw) []
  | .attach _ => []
  | .reset d => writeFrameEvents cfg d (encDataInc cfg) []
  | .displayAuto d a bytes => modeEvents cfg d .increment v ++ writeFrameEvents cfg d (encAddr a) bytes
  | .displayFixed d a b => modeEvents cfg d .fixed v ++ writeFrameEvents cfg d (encAddr a) [b]
  | .readKey d => readFrameEvents cfg d (encDataRead cfg) out
  | .setPulse d w => writeFrameEvents cfg d (encDisp cfg v.don (maskWidth w)) []
  | .setDisplay d on => writeFrameEvents cfg d (encDisp cfg on v.pw) []
  | .setMode d m => writeFrameEvents cfg d (encMode m) []

/-- The shadow registers of the slot after an accepted instruction. -/
def instrDev (v : Dev) : Instr → Dev
  | .mode _ _ => v
  | .dataInc _ => v
  | .dataFixed _ => v
  | .dataRead _ => v
  | .addr _ _ _ => v
  | .disp _ _ _ => v
  | .attach _ => Dev.initial
  | .reset _ => { v with am := .increment }
  | .displayAuto _ _ _ => { v with am := .increment }
  | .displayFixed _ _ _ => { v with am := .fixed }
  | .readKey _ => v
  | .setPulse _ w => { v with pw := maskWidth w }
  | .setDisplay _ on => { v with don := on }
  | .setMode _ _ => v

/-- The result of an accepted instruction whose read frame returns `out`. -/
def instrResult (out : List Byte) : Instr → Result
  | .mode _ _ => .ok
  | .dataInc _ => .ok
  | .dataFixed _ => .ok
  | .dataRead _ => .okBytes out
  | .addr _ _ _ => .ok
  | .disp _ _ _ => .ok
  | .attach _ => .ok
  | .reset _ => .ok
  | .displayAuto _ _ _ => .ok
  | .displayFixed _ _ _ => .ok
  | .readKey _ => .okBytes out
  | .setPulse _ _ => .ok
  | .setDisplay _ _ => .ok
  | .setMode _ _ => .ok

/-- How many samples an accepted instruction takes. -/
def instrSamples (cfg : Config) : Instr → Nat
  | .mode _ _ => 0
  | .dataInc _ => 0
  | .dataFixed _ => 0
  | .dataRead _ => 8 * cfg.keyBytes
  | .addr _ _ _ => 0
  | .disp _ _ _ => 0
  | .attach _ => 0
  | .reset _ => 0
  | .displayAuto _ _ _ => 0
  | .displayFixed _ _ _ => 0
  | .readKey _ => 8 * cfg.keyBytes
  | .setPulse _ _ => 0
  | .setDisplay _ _ => 0
  | .setMode _ _ => 0

/-- The pin configuration of ATTACH, which is no event (R121). -/
def instrConfigure (s : State) : Instr → State
  | .mode _ _ => s
  | .dataInc _ => s
  | .dataFixed _ => s
  | .dataRead _ => s
  | .addr _ _ _ => s
  | .disp _ _ _ => s
  | .attach d => configureSTB d s
  | .reset _ => s
  | .displayAuto _ _ _ => s
  | .displayFixed _ _ _ => s
  | .readKey _ => s
  | .setPulse _ _ => s
  | .setDisplay _ _ => s
  | .setMode _ _ => s

/-- The state an accepted instruction leaves when the shadow registers of its slot are `v`. -/
def instrState (i : Instr) (v : Dev) (s : State) : State :=
  complete (instrResult (upcomingKeys s) i)
    (performed (instrEvents s.cfg v (upcomingKeys s) i)
      (writeDev i.slot (instrDev v i) (answered (instrSamples s.cfg i) (instrConfigure (accept s) i))))

@[simp] theorem instrState_cfg (i : Instr) (v : Dev) (s : State) : (instrState i v s).cfg = s.cfg := by cases i <;> rfl

@[simp] theorem instrState_devs (i : Instr) (v : Dev) (s : State) :
    (instrState i v s).devs = s.devs.set i.slot (instrDev v i) := by cases i <;> rfl

@[simp] theorem instrState_pins (i : Instr) (v : Dev) (s : State) : (instrState i v s).pins =
    applyEvents (instrConfigure s i).pins (instrEvents s.cfg v (upcomingKeys s) i) := by cases i <;> rfl

@[simp] theorem instrState_trace (i : Instr) (v : Dev) (s : State) :
    (instrState i v s).trace = s.trace ++ instrEvents s.cfg v (upcomingKeys s) i := by cases i <;> rfl

@[simp] theorem instrState_results (i : Instr) (v : Dev) (s : State) :
    (instrState i v s).results = s.results ++ [instrResult (upcomingKeys s) i] := by cases i <;> rfl

@[simp] theorem instrState_busy (i : Instr) (v : Dev) (s : State) : (instrState i v s).busy = false := by
  cases i <;> rfl

@[simp] theorem instrState_seqPos (i : Instr) (v : Dev) (s : State) : (instrState i v s).seqPos = none := by
  cases i <;> rfl

@[simp] theorem instrState_port (i : Instr) (v : Dev) (s : State) : (instrState i v s).port = s.port := by
  cases i <;> rfl

@[simp] theorem instrState_answers (i : Instr) (v : Dev) (s : State) :
    (instrState i v s).answers = s.answers.drop (instrSamples s.cfg i) := by cases i <;> rfl

@[simp] theorem instrState_samples (i : Instr) (v : Dev) (s : State) :
    (instrState i v s).samples = s.samples + instrSamples s.cfg i := by cases i <;> rfl

/-- Writing back the shadow registers of a slot changes nothing. -/
theorem writeDev_self (d : Nat) (v : Dev) (s : State) (h : s.devs[d]? = some v) : writeDev d v s = s := by
  have hs : s.devs.set d v = s.devs := by
    obtain ⟨hd, rfl⟩ := List.getElem?_eq_some_iff.mp h
    exact List.set_getElem_self hd
  simp [writeDev, hs]

theorem writeDev_answered (d : Nat) (v : Dev) (n : Nat) (s : State) :
    writeDev d v (answered n s) = answered n (writeDev d v s) := rfl

theorem readDev_of_getElem? (d : Nat) (v : Dev) (s : State) (h : s.devs[d]? = some v) : readDev d s = v := by
  simp [readDev, List.getD_eq_getElem?_getD, h]

theorem lt_of_getElem? (d : Nat) (v : Dev) (s : State) (h : s.devs[d]? = some v) : d < s.nDev :=
  (List.getElem?_eq_some_iff.mp h).1

theorem modeEvents_eq (d : Nat) (m : AddressMode) (v : Dev) (s : State) (h : s.devs[d]? = some v) :
    enterMode d m s = performed (modeEvents s.cfg d m v) (writeDev d { v with am := m } s) := by
  rw [enterMode_eq, writeAm, readDev_of_getElem? d v s h, modeEvents]
  split
  · rename_i hm
    subst hm
    rw [performed_nil, writeDev_self d v s h]
  · rfl

/-- The slot of an accepted instruction exists. -/
theorem slot_lt_of_accepted (cfg : Config) (n : Nat) (i : Instr) (h : accepted cfg n i = true) : i.slot < n := by
  cases i <;> simp_all [accepted, Instr.slot]

/-- Two conditions checked in order are their conjunction checked (R155). -/
theorem require_or (a b : Bool) : (require a).or (require b) = require (a && b) := by
  cases a <;> cases b <;> rfl

/-- The body of an instruction: what it does once its checks have passed. -/
def instrBody : Instr → State → Result × State
  | .mode d m, s => (.ok, cmdFrame d (encMode m) s)
  | .dataInc d, s => (.ok, cmdFrame d (encDataInc s.cfg) s)
  | .dataFixed d, s => (.ok, cmdFrame d (encDataFixed s.cfg) s)
  | .dataRead d, s =>
    (.okBytes (readFrame d (encDataRead s.cfg) s.cfg.keyBytes s).1,
      (readFrame d (encDataRead s.cfg) s.cfg.keyBytes s).2)
  | .addr d a payload, s => (.ok, writeFrame d (encAddr (a.zeroExtend 8)) payload s)
  | .disp d don pw, s => (.ok, cmdFrame d (encDisp s.cfg don pw) s)
  | .attach d, s => (.ok, writeDev d Dev.initial (configureSTB d s))
  | .reset d, s => (.ok, writeAm d .increment (cmdFrame d (encDataInc s.cfg) s))
  | .displayAuto d a bytes, s => (.ok, writeFrame d (encAddr a) bytes (enterMode d .increment s))
  | .displayFixed d a b, s => (.ok, writeFrame d (encAddr a) [b] (enterMode d .fixed s))
  | .readKey d, s =>
    (.okBytes (readFrame d (encDataRead s.cfg) s.cfg.keyBytes s).1,
      (readFrame d (encDataRead s.cfg) s.cfg.keyBytes s).2)
  | .setPulse d w, s =>
    (.ok, cmdFrame d (displayControl d (writePw d (maskWidth w) s)) (writePw d (maskWidth w) s))
  | .setDisplay d on, s => (.ok, cmdFrame d (displayControl d (writeDon d on s)) (writeDon d on s))
  | .setMode d m, s => (.ok, cmdFrame d (encMode m) s)

/-- A 4-bit address is the same number as a byte (R104). -/
theorem toNat_address (a : BitVec 4) : (a.zeroExtend 8).toNat = a.toNat := by
  simp only [BitVec.truncate_eq_setWidth, BitVec.toNat_setWidth]
  omega

/-- Every instruction is an operation whose checks are those of `accepted`. -/
theorem exec_eq_operation (i : Instr) (s : State) :
    exec i s = operation (require (accepted s.cfg s.nDev i)) (instrBody i) s := by
  cases i <;>
    simp only [exec, execMode, execDataInc, execDataFixed, execDataRead, execAddr, execDisp, execAttach, execReset,
      execDisplayAuto, execDisplayFixed, execReadKey, execSetPulse, execSetDisplay, execSetMode, checkSlot,
      checkAddress, checkSize, checkVariant, require_or, accepted, toNat_address, Bool.and_assoc] <;>
    rfl

/-- What the body of an instruction does. -/
theorem instrBody_eq (i : Instr) (v : Dev) (s : State) (hv : s.devs[i.slot]? = some v) :
    instrBody i s = (instrResult (upcomingKeys s) i,
      performed (instrEvents s.cfg v (upcomingKeys s) i)
        (writeDev i.slot (instrDev v i) (answered (instrSamples s.cfg i) (instrConfigure s i)))) := by
  have hr := readDev_of_getElem? _ v s hv
  have hn := lt_of_getElem? _ v s hv
  cases i <;> simp only [Instr.slot] at hv hr hn <;>
    simp [instrBody, instrResult, instrEvents, instrDev, instrSamples, instrConfigure, Instr.slot, cmdFrame_eq,
      writeFrame_eq, readFrame_eq, upcomingKeys, writeDev_self _ _ _ hv, modeEvents_eq _ _ _ _ hv, writeAm, writePw,
      writeDon, displayControl, readDev_writeDev _ _ _ hn, hr, performed_performed, writeDev_performed,
      writeDev_answered]

/-- All that an instruction can do. -/
theorem exec_cases (i : Instr) (s : State) :
    (s.busy = true ∧ exec i s = .fault .operationWhileBusy) ∨
    (s.busy = false ∧ accepted s.cfg s.nDev i = false ∧
      exec i s = .next (complete (.error .invalidArgument) (accept s))) ∨
    (s.busy = false ∧ accepted s.cfg s.nDev i = true ∧ ∃ v, s.devs[i.slot]? = some v ∧
      exec i s = .next (instrState i v s)) := by
  rw [exec_eq_operation]
  cases hb : s.busy
  · right
    cases ha : accepted s.cfg s.nDev i
    · exact .inl ⟨rfl, rfl, operation_failed _ _ _ hb⟩
    · have hd := slot_lt_of_accepted _ _ i ha
      refine .inr ⟨rfl, rfl, s.devs[i.slot], List.getElem?_eq_getElem hd, ?_⟩
      rw [require_true, operation_passed _ _ hb, instrBody_eq i s.devs[i.slot] (accept s) (List.getElem?_eq_getElem hd)]
      rfl
  · exact .inl ⟨rfl, operation_busy _ _ _ hb⟩

/-- The next states of an instruction. -/
theorem exec_next_cases {i : Instr} {s t : State} (h : exec i s = .next t) :
    s.busy = false ∧ ((accepted s.cfg s.nDev i = false ∧ t = complete (.error .invalidArgument) (accept s)) ∨
      (accepted s.cfg s.nDev i = true ∧ ∃ v, s.devs[i.slot]? = some v ∧ t = instrState i v s)) := by
  obtain ⟨-, he⟩ | ⟨hb, ha, he⟩ | ⟨hb, ha, v, hv, he⟩ := exec_cases i s
  · rw [he] at h; cases h
  · rw [he] at h; cases h; exact ⟨hb, .inl ⟨ha, rfl⟩⟩
  · rw [he] at h; cases h; exact ⟨hb, .inr ⟨ha, v, hv, rfl⟩⟩

/-- The next states of a step: the idle block stays as it is, or an instruction taken off the port runs. -/
theorem step_next_cases {s t : State} (h : step s = .next t) :
    s.cfg.wf = true ∧ 0 < s.nDev ∧ (t = s ∨ ∃ i rest, exec i { s with port := rest } = .next t) := by
  unfold step fetch at h
  split at h <;> rename_i hf <;> split at hf <;> rename_i hw
  · simp only [Bool.and_eq_true, decide_eq_true_eq] at hw
    cases h; exact ⟨hw.1, hw.2, .inl rfl⟩
  · cases hf
  · simp only [Bool.and_eq_true, decide_eq_true_eq] at hw
    split at hf
    · cases hf
    · rename_i rest _
      split at hf
      · cases hf; exact ⟨hw.1, hw.2, .inr ⟨_, rest, h⟩⟩
      · cases hf
  · cases hf
  · cases h
  · cases h

/-- The frames of an accepted instruction, with its bytes as the encoder gives them. -/
def instrFrames (cfg : Config) (v : Dev) (out : List Byte) : Instr → List Frame
  | .mode d m => [⟨d, [encMode m], []⟩]
  | .dataInc d => [⟨d, [encDataInc cfg], []⟩]
  | .dataFixed d => [⟨d, [encDataFixed cfg], []⟩]
  | .dataRead d => [⟨d, [encDataRead cfg], out⟩]
  | .addr d a payload => [⟨d, encAddr (a.zeroExtend 8) :: payload, []⟩]
  | .disp d don pw => [⟨d, [encDisp cfg don pw], []⟩]
  | .attach _ => []
  | .reset d => [⟨d, [encDataInc cfg], []⟩]
  | .displayAuto d a bytes => modeFrame cfg d .increment v ++ [⟨d, encAddr a :: bytes, []⟩]
  | .displayFixed d a b => modeFrame cfg d .fixed v ++ [⟨d, [encAddr a, b], []⟩]
  | .readKey d => [⟨d, [encDataRead cfg], out⟩]
  | .setPulse d w => [⟨d, [encDisp cfg v.don (maskWidth w)], []⟩]
  | .setDisplay d on => [⟨d, [encDisp cfg on v.pw], []⟩]
  | .setMode d m => [⟨d, [encMode m], []⟩]

theorem frames_append_modeEvents (cfg : Config) (es : List Event) (fs : List Frame) (d : Nat) (m : AddressMode)
    (v : Dev) (h : frames es = some fs) :
    frames (es ++ modeEvents cfg d m v) = some (fs ++ modeFrame cfg d m v) := by
  unfold modeEvents modeFrame
  split
  · simpa using h
  · rw [frames_append_writeFrame _ _ _ _ _ _ h]
    cases m <;> rfl

/-- The events of an accepted instruction are its frames (R92). -/
theorem frames_append_instrEvents (cfg : Config) (es : List Event) (fs : List Frame) (v : Dev) (out : List Byte)
    (i : Instr) (h : frames es = some fs) :
    frames (es ++ instrEvents cfg v out i) = some (fs ++ instrFrames cfg v out i) := by
  cases i <;> simp only [instrEvents, instrFrames, List.append_nil, ← List.append_assoc]
  case attach => exact h
  case dataRead => exact frames_append_readFrame _ _ _ _ _ _ h
  case readKey => exact frames_append_readFrame _ _ _ _ _ _ h
  case displayAuto => exact frames_append_writeFrame _ _ _ _ _ _ (frames_append_modeEvents _ _ _ _ _ _ h)
  case displayFixed => exact frames_append_writeFrame _ _ _ _ _ _ (frames_append_modeEvents _ _ _ _ _ _ h)
  all_goals exact frames_append_writeFrame _ _ _ _ _ _ h

/-- What it is for a run of bytes to lie in the largest address space (R46). -/
theorem runFits_iff {a n : Nat} : runFits a n = true ↔ a < 16 ∧ a + n ≤ 16 := by
  simp only [runFits, Bool.and_eq_true, decide_eq_true_eq]
  rfl

/-- An instruction a block accepts is well formed: no variant has more than sixteen addresses (R6, R46). -/
theorem wellFormed_of_accepted {cfg : Config} {n : Nat} {i : Instr} (h16 : cfg.addrCount ≤ 16)
    (h : accepted cfg n i = true) : i.wellFormed = true := by
  cases i <;>
    simp only [Instr.wellFormed, runFits_iff, accepted, Bool.and_eq_true, decide_eq_true_eq] at h ⊢ <;> omega

end Sys2Proof.Machine
end

