-- ==== Sys2Proof/Laws/PerInstr.lean ====
section
/-! SUPPORT. What is said of every instruction as syntax, one lemma per constructor: how it is presented (R60, R71). -/

namespace Sys2Proof.Laws.Presented

/-- An instruction is presented on its own slot; a host operation with its code of R71, a wire command with the
command byte of its command (R100 to R105). -/
def Statement (i : Instr) : Prop :=
  ∀ cfg : Config, (encode cfg i).slot = i.slot ∧
    (∀ code, i.code = some code → ∃ operands, encode cfg i = .host code i.slot operands) ∧
    (∀ c, i.command = some c → ∃ payload, encode cfg i = .wire i.slot (encodeCommand cfg c) payload)

theorem mode (d : Nat) (m : BitVec 2) : Statement (.mode d m) :=
  fun _ => ⟨rfl, by rintro _ ⟨⟩, by rintro _ ⟨⟩; exact ⟨_, rfl⟩⟩

theorem dataInc (d : Nat) : Statement (.dataInc d) :=
  fun _ => ⟨rfl, by rintro _ ⟨⟩, by rintro _ ⟨⟩; exact ⟨_, rfl⟩⟩

theorem dataFixed (d : Nat) : Statement (.dataFixed d) :=
  fun _ => ⟨rfl, by rintro _ ⟨⟩, by rintro _ ⟨⟩; exact ⟨_, rfl⟩⟩

theorem dataRead (d : Nat) : Statement (.dataRead d) :=
  fun _ => ⟨rfl, by rintro _ ⟨⟩, by rintro _ ⟨⟩; exact ⟨_, rfl⟩⟩

theorem addr (d : Nat) (a : BitVec 4) (payload : List Byte) : Statement (.addr d a payload) :=
  fun _ => ⟨rfl, by rintro _ ⟨⟩, by rintro _ ⟨⟩; exact ⟨_, rfl⟩⟩

theorem disp (d : Nat) (don : Bool) (pw : BitVec 3) : Statement (.disp d don pw) :=
  fun _ => ⟨rfl, by rintro _ ⟨⟩, by rintro _ ⟨⟩; exact ⟨_, rfl⟩⟩

theorem attach (d : Nat) : Statement (.attach d) :=
  fun _ => ⟨rfl, by rintro _ ⟨⟩; exact ⟨_, rfl⟩, by rintro _ ⟨⟩⟩

theorem reset (d : Nat) : Statement (.reset d) :=
  fun _ => ⟨rfl, by rintro _ ⟨⟩; exact ⟨_, rfl⟩, by rintro _ ⟨⟩⟩

theorem displayAuto (d : Nat) (a : Byte) (bytes : List Byte) : Statement (.displayAuto d a bytes) :=
  fun _ => ⟨rfl, by rintro _ ⟨⟩; exact ⟨_, rfl⟩, by rintro _ ⟨⟩⟩

theorem displayFixed (d : Nat) (a b : Byte) : Statement (.displayFixed d a b) :=
  fun _ => ⟨rfl, by rintro _ ⟨⟩; exact ⟨_, rfl⟩, by rintro _ ⟨⟩⟩

theorem readKey (d : Nat) : Statement (.readKey d) :=
  fun _ => ⟨rfl, by rintro _ ⟨⟩; exact ⟨_, rfl⟩, by rintro _ ⟨⟩⟩

theorem setPulse (d : Nat) (w : Byte) : Statement (.setPulse d w) :=
  fun _ => ⟨rfl, by rintro _ ⟨⟩; exact ⟨_, rfl⟩, by rintro _ ⟨⟩⟩

theorem setDisplay (d : Nat) (on : Bool) : Statement (.setDisplay d on) :=
  fun _ => ⟨rfl, by rintro _ ⟨⟩; exact ⟨_, rfl⟩, by rintro _ ⟨⟩⟩

theorem setMode (d : Nat) (m : BitVec 2) : Statement (.setMode d m) :=
  fun _ => ⟨rfl, by rintro _ ⟨⟩; exact ⟨_, rfl⟩, by rintro _ ⟨⟩⟩

end Sys2Proof.Laws.Presented
end

