-- ==== Sys2Proof/Tests/Slice0.lean ====
section
/-! SUPPORT. Tests of the model against spec/95_test_vectors.md (the vectors are named in each comment) and the spec's
own worked examples, and for every statement with hypotheses a state and operands that meet them. -/

open Sys2Proof Sys2Proof.Machine

namespace Sys2Proof.Tests

-- One theorem after another: elaborated side by side, the many small kernel evaluations below each hold a thread.
set_option Elab.async false

/-! ### Helpers -/

/-- The next state of an outcome, if it is one. -/
def after : Host.Outcome State Fault Refusal → Option State
  | .next t => some t
  | .fault _ => none
  | .refused _ => none

/-- What the vectors of section 2.6 list: the last result, the frames added, the registers of slot 0 and the number of
events. -/
def report (i : Instr) (s : State) : Option (Option Result × Option (List Frame) × Option Dev × Nat) :=
  (after (exec i s)).map fun t => (t.results.getLast?, frames t.trace, t.devs[0]?, t.trace.length)

/-- The TM1638 with one slot whose shadow registers are `v`, before its first frame. -/
def from38 (v : Dev) : State := { State.reset with devs := [v] }

/-- The TM1668 with one slot and `n` addresses, after reset. -/
def reset68 (n : Nat) : State := State.powerOn (Config.tm1668 n) 1

/-- A frame with nothing read. -/
def sentFrame (d : Nat) (bytes : List Byte) : Frame := { slot := d, sent := bytes, read := [] }

def inc4 : Dev := { am := .increment, don := false, pw := 4 }
def fix4 : Dev := { am := .fixed, don := false, pw := 4 }

/-! ### Well-formedness -/

/-- The checks of WellFormed, one ill-formed term for each (R46): two bytes at the last address, address 16. -/
theorem test_wellFormed_refuses_long_payload : (Instr.addr 0 15 [0x01, 0x02]).wellFormed = false := by decide
theorem test_wellFormed_refuses_long_list : (Instr.displayAuto 0 15 [0x01, 0x02]).wellFormed = false ∧
    (Instr.displayAuto 0 16 []).wellFormed = false := by decide
theorem test_wellFormed_refuses_address : (Instr.displayFixed 0 16 0x00).wellFormed = false := by decide
theorem test_wellFormed_takes_last_address : (Instr.addr 0 15 [0x01]).wellFormed = true ∧
    (Instr.displayAuto 0 15 [0x09]).wellFormed = true ∧ (Instr.displayFixed 0 15 0x00).wellFormed = true := by decide

/-! ### Decoding: words written out bit by bit from R63 to R66 and R71 -/

theorem test_decode_mode : decode Config.tm1638 (.wire 0 0b00000011 []) = .ok (.mode 0 3) := by rfl
theorem test_decode_dataInc : decode Config.tm1638 (.wire 0 0b01000000 []) = .ok (.dataInc 0) := by rfl
theorem test_decode_dataFixed : decode Config.tm1638 (.wire 0 0b01000100 []) = .ok (.dataFixed 0) := by rfl
theorem test_decode_dataRead : decode Config.tm1638 (.wire 0 0b01000010 []) = .ok (.dataRead 0) := by rfl
theorem test_decode_addr : decode Config.tm1638 (.wire 0 0b11000111 [0x3F]) = .ok (.addr 0 7 [0x3F]) := by rfl
theorem test_decode_disp : decode Config.tm1638 (.wire 0 0b10001010 []) = .ok (.disp 0 true 2) := by rfl
theorem test_decode_attach : decode Config.tm1638 (.host 0b000 2 []) = .ok (.attach 2) := by rfl
theorem test_decode_reset : decode Config.tm1638 (.host 0b001 0 []) = .ok (.reset 0) := by rfl
theorem test_decode_displayAuto :
    decode Config.tm1638 (.host 0b010 0 [0x0E, 0xFF, 0x01]) = .ok (.displayAuto 0 0x0E [0xFF, 0x01]) := by rfl
theorem test_decode_displayFixed :
    decode Config.tm1638 (.host 0b011 0 [0x02, 0x5B]) = .ok (.displayFixed 0 0x02 0x5B) := by rfl
theorem test_decode_readKey : decode Config.tm1638 (.host 0b100 1 []) = .ok (.readKey 1) := by rfl
theorem test_decode_setPulse : decode Config.tm1638 (.host 0b101 0 [0xFF]) = .ok (.setPulse 0 0xFF) := by rfl
theorem test_decode_setDisplay : decode Config.tm1638 (.host 0b110 0 [0x01]) = .ok (.setDisplay 0 true) := by rfl
theorem test_decode_setMode : decode Config.tm1638 (.host 0b111 0 [0x03]) = .ok (.setMode 0 3) := by rfl

/-- The unknown bytes of section 2.5 and of R67. -/
theorem test_decode_rejects_unknown : [0x46, 0x90, 0x10, 0x41, 0x43, 0x48, 0x04, 0xD0].all
    (fun c => decodeCommand Config.tm1638 c == none) = true := by decide
theorem test_decode_rejects_payload :
    decode Config.tm1638 (.wire 0 0x40 [0x00]) = .error (.unexpectedPayload 0x40) := by rfl
/-- R46, R154: a payload past the last address is an instruction, and it answers InvalidArgument with no event. -/
theorem test_long_payload_answers : (after (step { State.reset with port := [.wire 0 0xCF [0x01, 0x02]] })).map
    (fun t => (t.results, t.trace)) = some ([.error .invalidArgument], []) := by decide +kernel
theorem test_decode_rejects_operands : decode Config.tm1638 (.host 3 0 [0x02]) = .error (.operandCount 3) := by rfl
theorem test_decode_rejects_wide_mode : decode Config.tm1638 (.host 7 0 [0x04]) = .error (.operandRange 7) := by rfl

/-- Vector 2.5: `Dec(0x03) = MODE(3)`. R67: a reader of traces reports UNKNOWN for a mode byte on the TM1638 and for
an address byte beyond the last of fourteen. -/
theorem test_dec_and_verdict : decodeCommand Config.tm1638 0x03 = some (.mode 3) ∧
    traceVerdict Config.tm1638 0x03 = .unknown 0x03 ∧ traceVerdict (Config.tm1668 14) 0x03 = .command (.mode 3) ∧
    traceVerdict (Config.tm1668 14) 0xCE = .unknown 0xCE ∧ traceVerdict Config.tm1638 0xCE = .command (.addr 14) := by
  decide
/-- R70 on the frames of a key read. -/
theorem test_disassemble : disassemble Config.tm1638 (readFrameEvents Config.tm1638 0 0x42 [0x01]) =
    some [({ slot := 0, sent := [0x42], read := [0x01] }, some (.command .dataRead))] := by decide +kernel

/-- R62: the TM1638 emits 35 distinct command bytes. -/
theorem test_emitted_commands : (emittedCommands Config.tm1638).Nodup ∧
    (emittedCommands Config.tm1638).length = 35 := by decide

/-! ### Bytes (sections 2.1, 2.3, 2.5) -/

theorem test_bits_C0 : byteBits 0xC0 = [false, false, false, false, false, false, true, true] := by decide
theorem test_bits_3F : byteBits 0x3F = [true, true, true, true, true, true, false, false] := by decide
theorem test_byte_of_samples :
    byteOfBits [true, true, true, true, true, false, false, false] = 0x1F ∧
    byteOfBits [false, true, false, true, false, true, false, true] = 0xAA := by decide
theorem test_encoder_bytes :
    (encDisp Config.tm1638 false 7, encDisp Config.tm1638 true 4, encAddr 13, encMode 2) = (0x87, 0x8C, 0xCD, 0x02) := by
  decide

/-- Section 2.2: the command frame `CmdFrame(0, 0x40)` from reset, at its joints. -/
theorem test_cmdFrame_events :
    ((cmdFrame 0 0x40 State.reset).trace.take 6, (cmdFrame 0 0x40 State.reset).trace.drop 36) =
      ([.stb 0 false, .dio false, .clk true, .delay 1, .clk false, .delay 1],
        [.dio false, .clk true, .delay 1, .clk false, .delay 1, .stb 0 true]) := by decide +kernel

/-! ### Host operations (section 2.6) -/

/-- V2. -/
theorem test_attach_reinitialises : report (.attach 0) (from38 { am := .fixed, don := true, pw := 7 }) =
    some (some .ok, some [], some inc4, 0) := by decide +kernel
/-- V28 for ATTACH: the first slot that does not exist. -/
theorem test_attach_invalid_slot : report (.attach 1) State.reset =
    some (some (.error .invalidArgument), some [], some inc4, 0) := by decide +kernel

/-- V4. -/
theorem test_reset_from_fixed : report (.reset 0) (from38 { am := .fixed, don := true, pw := 2 }) =
    some (some .ok, some [sentFrame 0 [0x40]], some { am := .increment, don := true, pw := 2 }, 42) := by decide +kernel
/-- V3: the latches after it. -/
theorem test_reset_latches : (after (exec (.reset 0) State.reset)).map (·.pins) =
    some { clk := false, dio := false, stb := [true] } := by decide +kernel

/-- V6. -/
theorem test_displayAuto_from_fixed : report (.displayAuto 0 14 [0xFF, 0x01]) (from38 fix4) =
    some (some .ok, some [sentFrame 0 [0x40], sentFrame 0 [0xCE, 0xFF, 0x01]], some inc4, 164) := by decide +kernel
/-- V10 and V13: nothing is sent, not even the mode frame. -/
theorem test_displayAuto_out_of_range :
    (report (.displayAuto 0 15 [0x01, 0x02]) State.reset ==
      some (some (.error .invalidArgument), some [], some inc4, 0) &&
    report (.displayAuto 0 16 []) (from38 fix4) ==
      some (some (.error .invalidArgument), some [], some fix4, 0)) = true := by decide +kernel

/-- V14. -/
theorem test_displayFixed_from_increment : report (.displayFixed 0 2 0x5B) State.reset =
    some (some .ok, some [sentFrame 0 [0x44], sentFrame 0 [0xC2, 0x5B]], some fix4, 124) := by decide +kernel
/-- V34: the fourteenth address of the TM1668 is out of range. -/
theorem test_displayFixed_fourteen : report (.displayFixed 0 14 0x00) (reset68 14) =
    some (some (.error .invalidArgument), some [], some inc4, 0) := by decide +kernel

/-- V18, with the answers listed. -/
theorem test_readKey_first_sample :
    report (.readKey 0) { State.reset with answers := true :: List.replicate 31 false } =
      some (some (.okBytes [0x01, 0x00, 0x00, 0x00]),
        some [{ slot := 0, sent := [0x42], read := [0x01, 0x00, 0x00, 0x00] }], some inc4, 204) := by decide +kernel
/-- Section 2.4 and the latches after a read. -/
theorem test_readKey_bytes_in_order :
    (after (exec (.readKey 0) { State.reset with answers := keyAnswers [0x1F, 0x00, 0x04, 0x40] })).map
      (fun t => (t.results, t.answers, t.pins)) =
    some ([.okBytes [0x1F, 0x00, 0x04, 0x40]], [], { clk := false, dio := true, stb := [true] }) := by decide +kernel

/-- V22: a width of 8 is masked to 0. -/
theorem test_setPulse_masks : report (.setPulse 0 8) State.reset =
    some (some .ok, some [sentFrame 0 [0x80]], some { am := .increment, don := false, pw := 0 }, 42) := by decide +kernel
/-- V21. -/
theorem test_setPulse_keeps_flag : report (.setPulse 0 0) (from38 { am := .increment, don := true, pw := 4 }) =
    some (some .ok, some [sentFrame 0 [0x88]], some { am := .increment, don := true, pw := 0 }, 42) := by decide +kernel

/-- V25. -/
theorem test_setDisplay_on : report (.setDisplay 0 true) State.reset =
    some (some .ok, some [sentFrame 0 [0x8C]], some { am := .increment, don := true, pw := 4 }, 42) := by decide +kernel
/-- V26. -/
theorem test_setDisplay_off : report (.setDisplay 0 false) (from38 { am := .increment, don := true, pw := 2 }) =
    some (some .ok, some [sentFrame 0 [0x82]], some { am := .increment, don := false, pw := 2 }, 42) := by decide +kernel

/-- V30. -/
theorem test_setMode_sends : report (.setMode 0 3) (reset68 16) =
    some (some .ok, some [sentFrame 0 [0x03]], some inc4, 42) := by decide +kernel
/-- V29. -/
theorem test_setMode_absent : report (.setMode 0 1) State.reset =
    some (some (.error .invalidArgument), some [], some inc4, 0) := by decide +kernel

/-! ### Wire commands (the frames of R68 around the bytes of section 2.5) -/

theorem test_mode_frame : report (.mode 0 1) (reset68 14) =
    some (some .ok, some [sentFrame 0 [0x01]], some inc4, 42) := by decide +kernel
theorem test_dataInc_frame : report (.dataInc 0) (from38 fix4) =
    some (some .ok, some [sentFrame 0 [0x40]], some fix4, 42) := by decide +kernel
theorem test_dataFixed_frame : report (.dataFixed 0) State.reset =
    some (some .ok, some [sentFrame 0 [0x44]], some inc4, 42) := by decide +kernel
/-- V31, for the read frame: five bytes on the TM1668, 244 events. -/
theorem test_dataRead_frame : report (.dataRead 0) { reset68 16 with answers := List.replicate 40 false } =
    some (some (.okBytes [0, 0, 0, 0, 0]), some [{ slot := 0, sent := [0x42], read := [0, 0, 0, 0, 0] }], some inc4,
      244) := by decide +kernel
theorem test_addr_frame : report (.addr 0 15 [0x09]) State.reset =
    some (some .ok, some [sentFrame 0 [0xCF, 0x09]], some inc4, 82) := by decide +kernel
theorem test_disp_frame : report (.disp 0 true 2) State.reset =
    some (some .ok, some [sentFrame 0 [0x8A]], some inc4, 42) := by decide +kernel

/-! ### The step, and what the host asks of a table word -/

theorem test_idle_step : after (step State.reset) = some State.reset := by decide +kernel
theorem test_fetchWord_reset : (after (step (State.reset.withFetchWord 8 1))).map (fun t => (t.port, frames t.trace)) =
    some ([], some [sentFrame 0 [0x40]]) := by decide +kernel
theorem test_fetchWord_addr : (after (step (State.reset.withFetchWord 8 0xC5))).map (fun t => frames t.trace) =
    some (some [sentFrame 0 [0xC5]]) := by decide +kernel
theorem test_table_words : (decodeTableWord 8 0, decodeTableWord 8 7, decodeTableWord 8 0x42, decodeTableWord 8 0x46) =
    (some (.attach 0), some (.setMode 0 0), some (.dataRead 0), none) := by decide +kernel

/-! ### The chip -/

/-- Program P1, its intended effect (R50): a chip in auto-increment mode takes the four bytes at 0 to 3. -/
theorem test_chip_sequence :
    (chipFrames Config.tm1638 0
      { display := List.replicate 16 0xEE, mode := some .increment, pointer := none, on := false, width := 0, multiplex := 0 }
      [sentFrame 0 [0xC0, 0x3F, 0x00, 0x06, 0x00]]).map (fun c => c.display.take 5) =
    some [0x3F, 0x00, 0x06, 0x00, 0xEE] := by decide +kernel

/-- R174: on a chip in fixed mode the payload all lands on one address. R47: past the last address there is no answer. -/
theorem test_chip_hazards :
    ((chipFrames (Config.tm1668 14) 0
      { display := [1, 2, 3], mode := some .fixed, pointer := none, on := false, width := 0, multiplex := 0 }
      [sentFrame 0 [0xC1, 0x3F, 0x06]]).map fun c => (c.display, c.pointer)) = some ([1, 0x06, 3], some 1) ∧
    chipFrames (Config.tm1668 14) 0
      { display := [1, 2, 3], mode := some .increment, pointer := none, on := false, width := 0, multiplex := 0 }
      [sentFrame 0 [0xC2, 0x3F, 0x06]] = none := by decide +kernel

/-! ### Witnesses: for every statement with hypotheses, a state and operands that meet them all -/

/-- A trace of one frame on slot 0, for the statements about what a trace already holds. -/
def oneFrame : State := { State.reset with
  trace := writeFrameEvents Config.tm1638 0 0x40 []
  pins := { clk := false, dio := false, stb := [true] } }

/-- StepRunsTheDecodedInstruction: a request that decodes, nothing presented, one that does not, and a configuration
with thirteen addresses and one with no slot. -/
theorem witness_step_decoded :
    State.reset.cfg.wf = true ∧ 0 < State.reset.nDev ∧
    (State.reset.withFetchWord 8 1).port = .host 1 0 [] :: [] ∧
    decode State.reset.cfg (.host 1 0 []) = .ok (.reset 0) := ⟨by decide, by decide, rfl, rfl⟩
theorem witness_step_idle : State.reset.cfg.wf = true ∧ 0 < State.reset.nDev ∧ State.reset.port = [] := by decide
theorem witness_step_undecodable :
    ({ State.reset with port := [.wire 0 0x46 []] } : State).port = .wire 0 0x46 [] :: [] ∧
    decode State.reset.cfg (.wire 0 0x46 []) = .error (.unknownCommand 0x46) := ⟨rfl, rfl⟩
theorem witness_step_bad_configuration :
    (State.powerOn { Config.tm1638 with addrCount := 13 } 1).cfg.wf = false ∧
    (State.powerOn Config.tm1638 0).nDev = 0 := by decide
/-- StepKeepsTheConfiguration, and the step premise of the invariants below. -/
theorem witness_step_next : ∃ t, step (State.reset.withFetchWord 8 1) = .next t := ⟨_, rfl⟩
/-- BusyBlockIsStuck. -/
theorem witness_busy : ({ State.reset with busy := true } : State).busy = true := rfl
/-- DecodeInvertsEncode. -/
theorem witness_encodable : Config.tm1638.bytesOk = true := by decide
/-- EncodeInvertsDecode: the request of an address command with a payload past the last address. -/
theorem witness_decoded : Config.tm1638.bytesOk = true ∧
    decode Config.tm1638 (.wire 0 0xCF [0x01, 0x02]) = .ok (.addr 0 15 [0x01, 0x02]) := ⟨by decide, rfl⟩
/-- ReservedBytesDecodeToNothing and TraceVerdictsFollowTheEmittedSet: a byte on each side. -/
theorem witness_reserved : (Config.tm1668 14).bytesOk = true ∧ (Config.tm1668 14).wf = true ∧
    0xCE ∉ emittedCommands (Config.tm1668 14) ∧ 0xCD ∈ emittedCommands (Config.tm1668 14) := by decide
/-- EncoderIsInjective. -/
theorem witness_encoder : (Config.tm1668 14).bytesOk = true ∧
    encodeCommand (Config.tm1668 14) (.addr 13) = encodeCommand (Config.tm1668 14) (.addr 13) := by decide
/-- CommandBytesHaveTheirValues: the last address. -/
theorem witness_last_address : (15 : Byte).toNat < 16 := by decide
/-- AttachInitialisesTheSlot: the last slot and the first that does not exist. -/
theorem witness_attach : State.reset.busy = false ∧ 0 < State.reset.nDev ∧ State.reset.nDev ≤ 1 := by decide
/-- ResetSendsIncrementMode. -/
theorem witness_reset : State.reset.busy = false ∧ State.reset.devs[0]? = some inc4 ∧ State.reset.nDev ≤ 1 := by decide
/-- DisplayAutoWritesInSequence: address 15 with one byte passes; a slot too high, address 16, and address 15 with two
bytes each fail. -/
theorem witness_displayAuto :
    (from38 fix4).busy = false ∧ (from38 fix4).devs[0]? = some fix4 ∧
    (15 : Byte).toNat < (from38 fix4).cfg.addrCount ∧ (15 : Byte).toNat + [0x09].length ≤ (from38 fix4).cfg.addrCount ∧
    (from38 fix4).nDev ≤ 1 ∧ (from38 fix4).cfg.addrCount ≤ (16 : Byte).toNat ∧
    (from38 fix4).cfg.addrCount < (15 : Byte).toNat + [0x01, 0x02].length := by decide
/-- DisplayFixedWritesOneByte: address 13 passes on the fourteen-address part and address 14 fails. -/
theorem witness_displayFixed :
    (reset68 14).busy = false ∧ (reset68 14).devs[0]? = some inc4 ∧ (13 : Byte).toNat < (reset68 14).cfg.addrCount ∧
    (reset68 14).nDev ≤ 1 ∧ (reset68 14).cfg.addrCount ≤ (14 : Byte).toNat := by decide
/-- ReadKeyReturnsTheSamples. -/
theorem witness_readKey : State.reset.busy = false ∧ 0 < State.reset.nDev ∧ State.reset.nDev ≤ 1 := by decide
/-- SetPulseStoresAndSends. -/
theorem witness_setPulse : State.reset.busy = false ∧ State.reset.devs[0]? = some inc4 ∧ State.reset.nDev ≤ 1 := by
  decide
/-- SetDisplayStoresAndSends. -/
theorem witness_setDisplay : (from38 fix4).busy = false ∧ (from38 fix4).devs[0]? = some fix4 ∧ (from38 fix4).nDev ≤ 1 := by
  decide
/-- SetModeSendsAndForgets: the TM1668 passes, the TM1638 and a slot too high fail. -/
theorem witness_setMode : (reset68 16).busy = false ∧ (reset68 16).cfg.hasMode = true ∧ 0 < (reset68 16).nDev ∧
    State.reset.busy = false ∧ State.reset.cfg.hasMode = false ∧ (reset68 16).nDev ≤ 1 := by decide
/-- CommandFrameInstructions. -/
theorem witness_command_frames : (reset68 14).busy = false ∧ 0 < (reset68 14).nDev ∧ (reset68 14).cfg.hasMode = true := by
  decide
/-- ReadAndWriteFrameInstructions: the last address of the fourteen-address part with the one byte that fits. -/
theorem witness_write_frame : (reset68 14).busy = false ∧ 0 < (reset68 14).nDev ∧
    (13 : BitVec 4).toNat < (reset68 14).cfg.addrCount ∧
    (13 : BitVec 4).toNat + [0x01].length ≤ (reset68 14).cfg.addrCount := by decide
/-- FailedChecksChangeNothing. -/
theorem witness_failed_check : (Instr.displayAuto 0 15 [0x01, 0x02]).isHostOp = true ∧
    State.reset.busy = false ∧ State.reset.seqPos = none ∧
    accepted State.reset.cfg State.reset.nDev (.displayAuto 0 15 [0x01, 0x02]) = false := by decide
/-- IllFormedInstructionsAreRejected: a payload past the last address of any variant. -/
theorem witness_ill_formed : State.reset.cfg.wf = true ∧ State.reset.busy = false ∧ State.reset.seqPos = none ∧
    (Instr.addr 0 15 [1, 2]).wellFormed = false := by decide
/-- WireCommandsCheckTheirOperands: a slot that does not exist, and an address with one byte too many. -/
theorem witness_wire_check : (Instr.dataInc 1).isHostOp = false ∧ (Instr.addr 0 15 [1, 2]).isHostOp = false ∧
    State.reset.busy = false ∧ State.reset.seqPos = none ∧ accepted State.reset.cfg State.reset.nDev (.dataInc 1) = false ∧
    accepted State.reset.cfg State.reset.nDev (.addr 0 15 [1, 2]) = false := by decide
/-- EveryInstructionReturns, SamplesDecideNothing (with another state whose environment answers otherwise). -/
theorem witness_two_environments : State.reset.busy = false ∧
    ({ State.reset with answers := [true] } : State).busy = false ∧
    ({ State.reset with answers := [true] } : State).cfg = State.reset.cfg ∧
    ({ State.reset with answers := [true] } : State).devs = State.reset.devs := by decide
/-- EventListLengths, its two clauses. -/
theorem witness_event_lengths : (from38 fix4).busy = false ∧ (from38 fix4).devs[0]? = some fix4 ∧
    accepted (from38 fix4).cfg (from38 fix4).nDev (.displayAuto 0 14 [0xFF, 0x01]) = true ∧
    accepted (from38 fix4).cfg (from38 fix4).nDev (.displayAuto 0 14 [0xFF, 0x01, 0x00]) = false := by decide
/-- FrameSummary, after a frame. -/
theorem witness_frame_summary : oneFrame.cfg.wf = true ∧ oneFrame.busy = false ∧ oneFrame.devs[0]? = some inc4 ∧
    accepted oneFrame.cfg oneFrame.nDev (.displayFixed 0 15 0xFF) = true ∧
    frames oneFrame.trace = some [sentFrame 0 [0x40]] := by decide +kernel
/-- AddressModeTable, its two clauses. -/
theorem witness_mode_table : oneFrame.cfg.bytesOk = true ∧ oneFrame.busy = false ∧
    (Instr.displayFixed 0 15 0xFF).isHostOp = true ∧ oneFrame.devs[0]? = some inc4 ∧
    frames oneFrame.trace = some [sentFrame 0 [0x40]] ∧
    accepted oneFrame.cfg oneFrame.nDev (.displayFixed 0 15 0xFF) = true ∧
    accepted oneFrame.cfg oneFrame.nDev (.displayFixed 0 16 0xFF) = false := by decide +kernel
/-- DisplaySettersCommute. -/
theorem witness_setters : (from38 fix4).busy = false ∧ (from38 fix4).devs[0]? = some fix4 := by decide
/-- DisplayControlByteFollowsTheRegisters, its three clauses: registers equal but for the mode, the last slot, and a
setter that runs. -/
theorem witness_display_control : State.reset.devs[0]? = some inc4 ∧ (from38 fix4).devs[0]? = some fix4 ∧
    (from38 fix4).cfg = State.reset.cfg ∧ inc4.don = fix4.don ∧ inc4.pw = fix4.pw ∧ 1 < 2 := by decide
theorem witness_setter_runs : 0 < State.reset.nDev ∧ ∃ t, exec (.setDisplay 0 true) State.reset = .next t :=
  ⟨by decide, _, rfl⟩
/-- LatchesAfterAFrame, for one instruction of each of its clauses. -/
theorem witness_latches_data : Config.tm1638.bytesOk = true ∧ accepted Config.tm1638 1 (.reset 0) = true ∧
    ∃ t, exec (.reset 0) State.reset = .next t := ⟨by decide, by decide, _, rfl⟩
theorem witness_latches_mode : (Config.tm1668 16).bytesOk = true ∧ accepted (Config.tm1668 16) 1 (.setMode 0 3) = true ∧
    ∃ t, exec (.setMode 0 3) (reset68 16) = .next t := ⟨by decide, by decide, _, rfl⟩
theorem witness_latches_display : accepted Config.tm1638 1 (.setPulse 0 7) = true ∧
    ∃ t, exec (.setPulse 0 7) State.reset = .next t := ⟨by decide, _, rfl⟩
theorem witness_latches_read : accepted Config.tm1638 1 (.readKey 0) = true ∧
    ∃ t, exec (.readKey 0) State.reset = .next t := ⟨by decide, _, rfl⟩
theorem witness_latches_address : accepted Config.tm1638 1 (.displayAuto 0 15 []) = true ∧
    ∃ t, exec (.displayAuto 0 15 []) State.reset = .next t := ⟨by decide, _, rfl⟩
theorem witness_latches_payload : accepted Config.tm1638 1 (.displayFixed 0 15 0xFF) = true ∧
    ∃ t, exec (.displayFixed 0 15 0xFF) State.reset = .next t := ⟨by decide, _, rfl⟩
/-- OtherSlotsAreUntouched: two slots, the instruction on the first. -/
theorem witness_other_slot : 1 ≠ (Instr.reset 0).slot ∧
    ∃ t, exec (.reset 0) (State.powerOn Config.tm1638 2) = .next t := ⟨by decide, _, rfl⟩
/-- StepKeepsTheBlockQuiescent, StepKeepsTheLineDiscipline, AtMostOneChipIsSelected. -/
theorem witness_lines : Quiescent (State.reset.withFetchWord 8 1) ∧ LinesLawful (State.reset.withFetchWord 8 1) := by
  decide
/-- The same after a frame. -/
theorem witness_lines_after_frame : Quiescent oneFrame ∧ LinesLawful oneFrame := by decide +kernel
/-- StepKeepsTheFramesLawful. -/
theorem witness_frames_lawful : FramesLawful (State.reset.withFetchWord 8 1) ∧ FramesLawful oneFrame :=
  ⟨⟨[], rfl, by simp⟩, ⟨[sentFrame 0 [0x40]], by decide +kernel, by decide +kernel⟩⟩
/-- StepKeepsTheResultsLawful. -/
theorem witness_results_lawful :
    ResultsLawful { State.reset.withFetchWord 8 1 with results := [.ok, .okBytes [0, 0, 0, 0], .error .invalidArgument] } := by
  decide
/-- HostOperationsKeepTheRecord. -/
theorem witness_record : Config.tm1638.bytesOk = true ∧ (Instr.displayFixed 0 0 0).isHostOp = true ∧
    (∀ d, Instr.displayFixed 0 0 0 ≠ .attach d) ∧ ShadowsRecord State.reset ∧
    ∃ t, exec (.displayFixed 0 0 0) State.reset = .next t := by
  refine ⟨by decide, by decide, by simp, ⟨[], rfl, ?_⟩, _, rfl⟩
  intro d v h
  exact List.eq_of_mem_replicate (n := 1) (List.mem_of_getElem? h)
/-- KeyReadReturnsWhatTheChipPresents. -/
theorem witness_keys : State.reset.busy = false ∧ 0 < State.reset.nDev ∧
    [0x1F, 0x00, 0x04, 0x40].length = State.reset.cfg.keyBytes ∧
    ({ State.reset with answers := keyAnswers [0x1F, 0x00, 0x04, 0x40] ++ [true] } : State).answers =
      keyAnswers [0x1F, 0x00, 0x04, 0x40] ++ [true] := by decide

/-- A chip of sixteen display registers in auto-increment mode. -/
def chip16 : Chip :=
  { display := List.replicate 16 0xEE, mode := some .increment, pointer := none, on := true, width := 7, multiplex := 0 }

/-- DisplayAutoFillsTheDisplay and DisplayFixedStoresOneByte: sixteen bytes from address 0, and the last address. -/
theorem witness_chip : oneFrame.cfg.wf = true ∧ oneFrame.busy = false ∧ oneFrame.devs[0]? = some inc4 ∧
    frames oneFrame.trace = some [sentFrame 0 [0x40]] ∧ (15 : Byte).toNat < oneFrame.cfg.addrCount ∧
    (0 : Byte).toNat + (List.replicate 16 (0x00 : Byte)).length ≤ oneFrame.cfg.addrCount ∧
    chip16.display.length = oneFrame.cfg.addrCount ∧ chip16.mode = some inc4.am := by decide +kernel
/-- DisagreementMisplacesTheData, its two clauses: a chip in fixed mode where the register records Increment, and one in
auto-increment mode where it records Fixed. -/
def fixedFrame : State := { oneFrame with devs := [fix4] }
theorem witness_disagreement : oneFrame.cfg.wf = true ∧ oneFrame.busy = false ∧ oneFrame.devs[0]? = some inc4 ∧
    frames oneFrame.trace = some [sentFrame 0 [0x40]] ∧ (14 : Byte).toNat < oneFrame.cfg.addrCount ∧
    ({ chip16 with mode := some .fixed } : Chip).display.length = oneFrame.cfg.addrCount ∧
    inc4.am = .increment ∧ ({ chip16 with mode := some .fixed } : Chip).mode = some .fixed ∧
    (14 : Byte).toNat + [0x01, 0x02].length ≤ oneFrame.cfg.addrCount ∧
    fixedFrame.cfg.wf = true ∧ fixedFrame.busy = false ∧ fixedFrame.devs[0]? = some fix4 ∧
    frames fixedFrame.trace = some [sentFrame 0 [0x40]] ∧ (14 : Byte).toNat < fixedFrame.cfg.addrCount ∧
    chip16.display.length = fixedFrame.cfg.addrCount ∧ fix4.am = .fixed ∧ chip16.mode = some .increment := by
  decide +kernel
/-- ResetAndSettersBringAgreement: the chip may hold anything. -/
theorem witness_agreement : oneFrame.cfg.bytesOk = true ∧ oneFrame.busy = false ∧ oneFrame.devs[0]? = some inc4 ∧
    frames oneFrame.trace = some [sentFrame 0 [0x40]] := by decide +kernel

end Sys2Proof.Tests
end

namespace Sys2Proof.Machine

/-- An instruction keeps the parameters of the block (R6) and its number of slots (R5), accepted or not. -/
theorem exec_keeps_configuration {i : Instr} {s t : State} (h : exec i s = .next t) :
    t.cfg = s.cfg ∧ t.nDev = s.nDev := by
  obtain ⟨-, ⟨-, rfl⟩ | ⟨-, v, -, rfl⟩⟩ := exec_next_cases h
  · exact ⟨rfl, rfl⟩
  · exact ⟨instrState_cfg i v s, by simp only [State.nDev, instrState_devs, List.length_set]⟩

/-- Settles O4: a step leaves the block idle or runs one instruction, and neither changes parameters or slots. -/
theorem stepKeepsTheConfiguration : Obligations.StepKeepsTheConfiguration := by
  intro s t h
  obtain ⟨-, -, rfl | ⟨i, rest, hexec⟩⟩ := step_next_cases h
  · exact ⟨rfl, rfl⟩
  · exact exec_keeps_configuration (s := { s with port := rest }) hexec

end Sys2Proof.Machine

namespace Sys2Proof.Machine

/-! ### The frames of an instruction as a record of what they command (R21, R22, R23) -/

/-- The record of a chip after one command: the addressing mode and the display-control fields it sets
(R101, R102, R105). -/
def commandedDev (v : Dev) : Command → Dev
  | .mode _ => v
  | .dataInc => { v with am := .increment }
  | .dataFixed => { v with am := .fixed }
  | .dataRead => v
  | .addr _ => v
  | .disp don pw => { v with don := don, pw := pw }

/-- A frame to another slot leaves the record as it is (R56). -/
theorem recordFrame_other {cfg : Config} {d : Nat} {f : Frame} (h : f.slot ≠ d) (v : Dev) :
    recordFrame cfg d v f = v := if_neg h

/-- A frame to the slot records the command its first byte encodes. -/
theorem recordFrame_encodeCommand {cfg : Config} (h : cfg.bytesOk = true) (d : Nat) (v : Dev) (k : Command)
    (payload out : List Byte) :
    recordFrame cfg d v ⟨d, encodeCommand cfg k :: payload, out⟩ = commandedDev v k := by
  cases k <;> simp [recordFrame, decodeCommand_encodeCommand cfg _ h, commandedDev]

/-- An address byte is of class 11 whatever is or-ed into it (R104). -/
theorem encAddr_class : ∀ a : Byte, ¬ (encAddr a &&& 0xFC = 0x00) ∧ (encAddr a).extractLsb' 6 2 = 3 ∧
    ¬ (encAddr a &&& 0xF0 = 0x80) := by decide +kernel

/-- An address byte with anything or-ed into it sets no addressing mode and no display
control: it decodes to an address or to nothing. -/
theorem decodeCommand_encAddr {cfg : Config} (h : cfg.bytesOk = true) (a : Byte) :
    decodeCommand cfg (encAddr a) = none ∨ ∃ a', decodeCommand cfg (encAddr a) = some (.addr a') := by
  obtain ⟨hmode, hclass, hdisp⟩ := encAddr_class a
  obtain ⟨hinc, hfixed, hread⟩ := ne_data_of_class h (c := encAddr a) (by rw [hclass]; decide)
  rw [decodeCommand, if_neg hmode, if_neg hinc, if_neg hfixed, if_neg hread, if_neg hdisp]
  split
  · exact .inr ⟨_, rfl⟩
  · exact .inl rfl

/-- A write frame leaves the record as it is, at every address byte. -/
theorem recordFrame_encAddr {cfg : Config} (h : cfg.bytesOk = true) (d : Nat) (v : Dev) (a : Byte)
    (payload out : List Byte) : recordFrame cfg d v ⟨d, encAddr a :: payload, out⟩ = v := by
  obtain ha | ⟨a', ha⟩ := decodeCommand_encAddr h a <;> simp [recordFrame, ha]

/-- The mode-setting frame brings the record into the mode, and where it is suppressed the record is in it already
(R131). -/
theorem foldl_recordFrame_modeFrame {cfg : Config} (h : cfg.bytesOk = true) (d : Nat) (m : AddressMode) (v : Dev) :
    (modeFrame cfg d m v).foldl (recordFrame cfg d) v = { v with am := m } := by
  unfold modeFrame
  split
  next hm => subst hm; rfl
  next =>
    cases m
    · exact recordFrame_encodeCommand h d v .dataInc [] []
    · exact recordFrame_encodeCommand h d v .dataFixed [] []

/-- The mode-setting frame is on the slot it is for. -/
theorem slot_of_mem_modeFrame {cfg : Config} {d : Nat} {m : AddressMode} {v : Dev} {f : Frame}
    (h : f ∈ modeFrame cfg d m v) : f.slot = d := by
  unfold modeFrame at h
  split at h
  · cases h
  · cases m <;> rw [List.mem_singleton.mp h]

/-- An instruction's frames are all on its own slot (R56). -/
theorem slot_of_mem_instrFrames {cfg : Config} {v : Dev} {out : List Byte} {i : Instr} {f : Frame}
    (h : f ∈ instrFrames cfg v out i) : f.slot = i.slot := by
  cases i <;> simp only [instrFrames, List.mem_append, List.mem_singleton, List.not_mem_nil] at h
  case displayAuto => exact h.elim slot_of_mem_modeFrame (by rintro rfl; rfl)
  case displayFixed => exact h.elim slot_of_mem_modeFrame (by rintro rfl; rfl)
  all_goals (subst h; rfl)

/-- An instruction's frames leave the record of every other slot as it is (R56). -/
theorem foldl_recordFrame_other {cfg : Config} {d : Nat} {fs : List Frame} (h : ∀ f ∈ fs, f.slot ≠ d) (v : Dev) :
    fs.foldl (recordFrame cfg d) v = v := by
  induction fs with
  | nil => rfl
  | cons f fs ih =>
    rw [List.foldl_cons, recordFrame_other (h f List.mem_cons_self)]
    exact ih fun g hg => h g (List.mem_cons_of_mem f hg)

/-- The frames of a host operation but ATTACH command of the chip exactly what the operation writes to the shadow
registers: each setter sends what it stores, and the others send nothing the registers record. -/
theorem foldl_recordFrame_instrFrames {cfg : Config} (h : cfg.bytesOk = true) {i : Instr} (hi : i.isHostOp = true)
    (hattach : ∀ d, i ≠ .attach d) (v : Dev) (out : List Byte) :
    (instrFrames cfg v out i).foldl (recordFrame cfg i.slot) v = instrDev v i := by
  cases i with
  | mode | dataInc | dataFixed | dataRead | addr | disp => cases hi
  | attach d => exact absurd rfl (hattach d)
  | reset d => exact recordFrame_encodeCommand h d v .dataInc [] []
  | displayAuto d a bytes =>
    rw [instrFrames, List.foldl_append, Instr.slot, foldl_recordFrame_modeFrame h]
    exact recordFrame_encAddr h d _ a bytes []
  | displayFixed d a b =>
    rw [instrFrames, List.foldl_append, Instr.slot, foldl_recordFrame_modeFrame h]
    exact recordFrame_encAddr h d _ a [b] []
  | readKey d => exact recordFrame_encodeCommand h d v .dataRead [] out
  | setPulse d w => exact recordFrame_encodeCommand h d v (.disp v.don (maskWidth w)) [] []
  | setDisplay d on => exact recordFrame_encodeCommand h d v (.disp on v.pw) [] []
  | setMode d m => exact recordFrame_encodeCommand h d v (.mode m) [] []

/-- Settles O46: a rejected operation changes neither trace nor registers; an accepted one adds its frames, which on its
own slot command what it writes and on every other slot are not seen. -/
theorem hostOperationsKeepTheRecord : Obligations.HostOperationsKeepTheRecord := by
  rintro i s t hbytes hhost hattach ⟨fs, hfs, hrec⟩ h
  obtain ⟨-, ⟨-, rfl⟩ | ⟨-, v, hv, rfl⟩⟩ := exec_next_cases h
  · exact ⟨fs, hfs, hrec⟩
  · refine ⟨fs ++ instrFrames s.cfg v (upcomingKeys s) i, ?_, fun d w hw => ?_⟩
    · rw [instrState_trace]
      exact frames_append_instrEvents _ _ _ _ _ _ hfs
    · rw [instrState_devs] at hw
      rw [instrState_cfg, List.foldl_append]
      by_cases hd : i.slot = d
      · subst hd
        have hw' : w = instrDev v i := by
          rw [List.getElem?_set_self (lt_of_getElem? _ _ _ hv)] at hw
          exact (Option.some.inj hw).symm
        rw [← hrec _ v hv, foldl_recordFrame_instrFrames hbytes hhost hattach, hw']
      · rw [List.getElem?_set_ne hd] at hw
        rw [← hrec d w hw, foldl_recordFrame_other]
        exact fun f hf => slot_of_mem_instrFrames hf ▸ hd

/-! ### The select latches between operations (R27, R30) -/

/-- A write frame leaves the latches it leaves, whether or not a mode-setting frame goes before it (R90). -/
theorem applyEvents_modeEvents_writeFrame (cfg : Config) (p : Pins) (d : Nat) (m : AddressMode) (v : Dev) (c : Byte)
    (vs : List Byte) : applyEvents p (modeEvents cfg d m v ++ writeFrameEvents cfg d c vs) =
      applyEvents p (writeFrameEvents cfg d c vs) := by
  unfold modeEvents
  split
  · rfl
  · simp only [applyEvents_append, applyEvents_writeFrame, List.set_set]

/-- An accepted instruction leaves the select latch of its slot high and every other one as it was (R86 to R88,
R121). -/
theorem instrState_stb (i : Instr) (v : Dev) (s : State) :
    (instrState i v s).pins.stb = s.pins.stb.set i.slot true := by
  rw [instrState_pins]
  cases i <;> simp only [instrEvents, instrConfigure, Instr.slot, applyEvents_modeEvents_writeFrame,
    applyEvents_writeFrame, applyEvents_readFrame, applyEvents_nil, configureSTB_pins]

/-- An instruction that has a next state leaves the block quiescent. -/
theorem exec_keeps_quiescent {i : Instr} {s t : State} (hs : Quiescent s) (h : exec i s = .next t) :
    Quiescent t := by
  obtain ⟨-, -, hstb⟩ := hs
  obtain ⟨-, hn⟩ := exec_keeps_configuration h
  obtain ⟨-, ⟨-, rfl⟩ | ⟨-, v, -, rfl⟩⟩ := exec_next_cases h
  · exact ⟨rfl, rfl, hstb⟩
  · refine ⟨instrState_busy i v s, instrState_seqPos i v s, ?_⟩
    rw [instrState_stb, hstb, hn, List.set_replicate_self]

/-- Settles O41: an idle step changes nothing, and an instruction ends with its select latch high and `busy` clear. -/
theorem stepKeepsTheBlockQuiescent : Obligations.StepKeepsTheBlockQuiescent := by
  intro s t hs h
  obtain ⟨-, -, rfl | ⟨i, rest, hexec⟩⟩ := step_next_cases h
  · exact hs
  · exact exec_keeps_quiescent (s := { s with port := rest }) hs hexec

/-! ### What a step does with the host port (R29, R120) -/

section Fetch

variable {s : State} {r : Request} {rest : List Request}

/-- A block whose parameters a model has to refuse fetches nothing (U11, U12, U13). -/
theorem fetch_badConfiguration (h : s.cfg.wf = false ∨ s.nDev = 0) : fetch s = .refused .badConfiguration := by
  refine if_neg fun hc => ?_
  obtain ⟨hw, hn⟩ := (Bool.and_eq_true _ _).mp hc
  obtain h | h := h
  · rw [h] at hw; cases hw
  · rw [h] at hn; cases hn

/-- What the fetch asks of the block before it looks at the port. -/
theorem fetch_guard (hw : s.cfg.wf = true) (hn : 0 < s.nDev) : (s.cfg.wf && decide (0 < s.nDev)) = true := by
  rw [hw, decide_eq_true hn, Bool.and_self]

/-- An empty port offers nothing (R165). -/
theorem fetch_idle (hw : s.cfg.wf = true) (hn : 0 < s.nDev) (hp : s.port = []) : fetch s = .idle := by
  rw [fetch, if_pos (fetch_guard hw hn), hp]

/-- A first request that decodes offers its instruction, with the request taken off the port. -/
theorem fetch_instr {i : Instr} (hw : s.cfg.wf = true) (hn : 0 < s.nDev) (hp : s.port = r :: rest)
    (hd : decode s.cfg r = .ok i) : fetch s = .instr i { s with port := rest } := by
  rw [fetch, if_pos (fetch_guard hw hn), hp]
  simp only [hd]

/-- A first request that stands for no instruction is refused by name (R67, R72). -/
theorem fetch_undecodable {e : DecodeError} (hw : s.cfg.wf = true) (hn : 0 < s.nDev) (hp : s.port = r :: rest)
    (hd : decode s.cfg r = .error e) : fetch s = .refused (.undecodable e) := by
  rw [fetch, if_pos (fetch_guard hw hn), hp]
  simp only [hd]

end Fetch

/-- Settles O3: the four things the port can offer, each with what a step does with it. -/
theorem stepRunsTheDecodedInstruction : Obligations.StepRunsTheDecodedInstruction := by
  refine ⟨fun s r rest i hw hn hp hd => ?_, fun s hw hn hp => ?_, fun s r rest e hw hn hp hd => ?_, fun s h => ?_⟩
  · rw [step, fetch_instr hw hn hp hd]
  · rw [step, fetch_idle hw hn hp]
  · rw [step, fetch_undecodable hw hn hp hd]
  · rw [step, fetch_badConfiguration h]

end Sys2Proof.Machine

namespace Sys2Proof.Machine

/-! ### A failed check (R151, R154) -/

/-- On an idle block a failed operation appends its result and changes nothing else: the acceptance and the return
leave `busy` and the sequencer position as they were (R29, R30, R154). -/
theorem complete_accept_of_idle {s : State} (hb : s.busy = false) (hq : s.seqPos = none) (r : Result) :
    complete r (accept s) = { s with results := s.results ++ [r] } := by
  rw [complete, accept, ← hb, ← hq]

/-- An instruction whose operands fail a check appends `InvalidArgument` to the results of an idle block and changes
nothing else (R154). -/
theorem exec_of_not_accepted {i : Instr} {s : State} (hb : s.busy = false) (hq : s.seqPos = none)
    (ha : accepted s.cfg s.nDev i = false) :
    exec i s = .next { s with results := s.results ++ [.error .invalidArgument] } := by
  rw [exec_eq_operation, ha, require_false, operation_failed _ _ _ hb, complete_accept_of_idle hb hq]

/-- Settles O31: no block accepts an ill-formed instruction, since no variant has more than sixteen addresses. -/
theorem illFormedInstructionsAreRejected : Obligations.IllFormedInstructionsAreRejected := by
  intro i s hwf hb hq hill
  refine exec_of_not_accepted hb hq (Bool.eq_false_iff.mpr fun ha => ?_)
  rw [wellFormed_of_accepted (addrCount_le_of_wf hwf) ha] at hill
  cases hill

/-! ### The slots an instruction does not name (R56, R162) -/

/-- Settles O39: a rejected instruction changes no register and no latch; an accepted one writes the registers and the
select latch of its own slot only. -/
theorem otherSlotsAreUntouched : Obligations.OtherSlotsAreUntouched := by
  intro i s t e h he
  obtain ⟨-, ⟨-, rfl⟩ | ⟨-, v, -, rfl⟩⟩ := exec_next_cases h
  · exact ⟨rfl, rfl⟩
  · rw [instrState_devs, instrState_stb]
    exact ⟨List.getElem?_set_ne he.symm, List.getElem?_set_ne he.symm⟩

/-! ### The results (R42, R152) -/

/-- An accepted instruction returns success, or the `KEY_BYTES` bytes of a key read. -/
theorem instrResult_lawful (s : State) (i : Instr) : (instrResult (upcomingKeys s) i).lawful s.cfg = true := by
  have hkeys : (Result.okBytes (upcomingKeys s)).lawful s.cfg = true :=
    beq_iff_eq.mpr (upcomingBytes_length _ _ _)
  cases i with
  | dataRead | readKey => exact hkeys
  | _ => rfl

/-- One lawful result more keeps the results lawful. -/
theorem resultsLawful_of_append {s t : State} {r : Result} (hcfg : t.cfg = s.cfg) (hres : t.results = s.results ++ [r])
    (hs : ResultsLawful s) (hr : r.lawful s.cfg = true) : ResultsLawful t := by
  intro r' h'
  rw [hcfg]
  rw [hres, List.mem_append, List.mem_singleton] at h'
  obtain h' | rfl := h'
  · exact hs r' h'
  · exact hr

/-- An instruction that has a next state keeps the results lawful, accepted or not. -/
theorem exec_keeps_resultsLawful {i : Instr} {s t : State} (hs : ResultsLawful s) (h : exec i s = .next t) :
    ResultsLawful t := by
  obtain ⟨-, ⟨-, rfl⟩ | ⟨-, v, -, rfl⟩⟩ := exec_next_cases h
  · exact resultsLawful_of_append (s := s) rfl rfl hs rfl
  · exact resultsLawful_of_append (instrState_cfg i v s) (instrState_results i v s) hs (instrResult_lawful s i)

/-- Settles O45: an idle step returns nothing, and an instruction returns one lawful result. -/
theorem stepKeepsTheResultsLawful : Obligations.StepKeepsTheResultsLawful := by
  intro s t hs h
  obtain ⟨-, -, rfl | ⟨i, rest, hexec⟩⟩ := step_next_cases h
  · exact hs
  · exact exec_keeps_resultsLawful (s := { s with port := rest }) hs hexec

/-! ### The bytes of a key read (R44, R51) -/

/-- As long as answers are listed, the samples are those answers in order (R83). -/
theorem upcomingBits_append (bs rest : List Bit) (k : Nat) : upcomingBits bs.length (bs ++ rest) k = bs := by
  induction bs generalizing k with
  | nil => rfl
  | cons b bs ih => exact congrArg (b :: ·) (ih (k + 1))

/-- Key bytes presented least significant bit first take eight answers each. -/
@[simp] theorem keyAnswers_length (keys : List Byte) : (keyAnswers keys).length = 8 * keys.length := by
  simp [keyAnswers, List.length_flatMap, Nat.mul_comm]

/-- Key bytes presented least significant bit first are the bytes read, in order (R42, R44). -/
theorem upcomingBytes_keyAnswers (keys : List Byte) (rest : List Bit) (k : Nat) :
    upcomingBytes keys.length (keyAnswers keys ++ rest) k = keys := by
  induction keys generalizing k with
  | nil => rfl
  | cons v vs ih =>
    have happ : keyAnswers (v :: vs) ++ rest = byteBits v ++ (keyAnswers vs ++ rest) := by
      rw [keyAnswers, List.flatMap_cons, List.append_assoc, keyAnswers]
    have hbyte : byteOfBits (upcomingBits 8 (byteBits v ++ (keyAnswers vs ++ rest)) k) = v := by
      rw [← byteBits_length v, upcomingBits_append, byteOfBits_byteBits]
    rw [happ, List.length_cons, upcomingBytes, hbyte, ← byteBits_length v, List.drop_left, ih]

/-- Settles O47: an accepted key read returns the bytes of the upcoming answers, which are the bytes presented, and drops
the eight answers of each. -/
theorem keyReadReturnsWhatTheChipPresents : Obligations.KeyReadReturnsWhatTheChipPresents := by
  intro d s keys rest hb hd hlen hans
  have hkeys : upcomingKeys s = keys := by
    rw [upcomingKeys, hans, ← hlen, upcomingBytes_keyAnswers]
  have hdrop : s.answers.drop (8 * s.cfg.keyBytes) = rest := by
    rw [hans, ← hlen, ← keyAnswers_length, List.drop_left]
  have hacc : accepted s.cfg s.nDev (.readKey d) = true := decide_eq_true hd
  obtain ⟨hbusy, -⟩ | ⟨-, hrej, -⟩ | ⟨-, -, v, -, hexec⟩ := exec_cases (.readKey d) s
  · rw [hb] at hbusy; cases hbusy
  · rw [hacc] at hrej; cases hrej
  · refine ⟨_, hexec, ?_, ?_⟩
    · rw [instrState_results, hkeys, instrResult]
    · rw [instrState_answers, instrSamples, hdrop]

end Sys2Proof.Machine

namespace Sys2Proof.Machine

/-! ### Every step keeps the discipline of the shared lines (R27, R83, R94) -/

/-- A write frame keeps the discipline when no chip is selected before it, whether or not a mode-setting frame goes
before it: that frame leaves no chip selected again. -/
theorem busLawful_modeEvents_writeFrame (cfg : Config) (clk dio : Bit) (n d : Nat) (m : AddressMode) (v : Dev)
    (c : Byte) (vs : List Byte) (h : d < n) :
    busLawful { clk := clk, dio := dio, stb := List.replicate n true }
      (modeEvents cfg d m v ++ writeFrameEvents cfg d c vs) = true := by
  unfold modeEvents
  split
  · exact busLawful_writeFrame cfg clk dio n d c vs h
  · rw [busLawful_append, busLawful_writeFrame cfg clk dio n d _ [] h, applyEvents_writeFrame, List.set_replicate_self,
      busLawful_writeFrame cfg _ _ n d c vs h, Bool.true_and]

/-- The events of an instruction on a slot that exists keep the discipline when no chip is selected before them. -/
theorem busLawful_instrEvents (cfg : Config) (p : Pins) (n : Nat) (v : Dev) (out : List Byte) (i : Instr)
    (hp : p.stb = List.replicate n true) (hd : i.slot < n) : busLawful p (instrEvents cfg v out i) = true := by
  obtain ⟨clk, dio, stb⟩ := p
  subst hp
  cases i with
  | attach => rfl
  | dataRead | readKey => exact busLawful_readFrame cfg clk dio n _ _ out hd
  | displayAuto | displayFixed => exact busLawful_modeEvents_writeFrame cfg clk dio n _ _ v _ _ hd
  | _ => exact busLawful_writeFrame cfg clk dio n _ _ _ hd

/-- On a quiescent block the pin configuration of ATTACH moves no latch: the select it sets is high already. -/
theorem instrConfigure_pins {s : State} (hstb : s.pins.stb = List.replicate s.nDev true) (i : Instr) :
    (instrConfigure s i).pins = s.pins := by
  cases i with
  | attach d =>
    have hset : s.pins.stb.set d true = s.pins.stb := by rw [hstb, List.set_replicate_self]
    rw [instrConfigure, configureSTB_pins, hset]
  | _ => rfl

/-- An instruction that has a next state keeps the discipline: a rejected one touches neither latches nor trace, and the
events of an accepted one are performed from latches with every select high. -/
theorem exec_keeps_linesLawful {i : Instr} {s t : State} (hs : Quiescent s) (hl : LinesLawful s)
    (h : exec i s = .next t) : LinesLawful t := by
  obtain ⟨-, -, hstb⟩ := hs
  obtain ⟨hpins, hbus⟩ := hl
  obtain ⟨-, hn⟩ := exec_keeps_configuration h
  obtain ⟨-, ⟨-, rfl⟩ | ⟨ha, v, -, rfl⟩⟩ := exec_next_cases h
  · exact ⟨hpins, hbus⟩
  · have hevents := busLawful_instrEvents s.cfg s.pins s.nDev v (upcomingKeys s) i hstb (slot_lt_of_accepted _ _ i ha)
    rw [LinesLawful, hn, instrState_trace, instrState_pins, instrConfigure_pins hstb, applyEvents_append,
      busLawful_append, ← hpins, hbus, hevents]
    exact ⟨rfl, rfl⟩

/-- Settles O42: an idle step changes nothing, and an instruction performs lawful events from quiescent latches. -/
theorem stepKeepsTheLineDiscipline : Obligations.StepKeepsTheLineDiscipline := by
  intro s t hs hl h
  obtain ⟨-, -, rfl | ⟨i, rest, hexec⟩⟩ := step_next_cases h
  · exact hl
  · exact exec_keeps_linesLawful (s := { s with port := rest }) hs hl hexec

end Sys2Proof.Machine

namespace Sys2Proof.Machine

/-! ### What the transport performs and leaves (R84 to R88) -/

/-- A list of `n` events performed, with the latches it leaves written out. -/
theorem performed_of_pins {es : List Event} {s : State} {n : Nat} {p : Pins} (hn : es.length = n)
    (hp : applyEvents s.pins es = p) :
    performed es s = { s with trace := s.trace ++ es, seqPos := s.seqPos.map (· + n), pins := p } := by
  subst hn hp
  rfl

/-- The bits of a byte are its bits 0 to 7 in order (R43). -/
theorem byteBits_eq_map_range (v : Byte) : byteBits v = (List.range 8).map v.getLsbD := rfl

/-- Bit `i` of the byte assembled from eight samples is sample `i` (R44, R85). -/
theorem getLsbD_byteOfBits {bs : List Bit} (h : bs.length = 8) {i : Nat} (hi : i < 8) :
    some ((byteOfBits bs).getLsbD i) = bs[i]? := by
  conv_rhs => rw [← byteBits_byteOfBits bs h, byteBits_eq_map_range]
  rw [List.getElem?_map, List.getElem?_range hi, Option.map_some]

/-- Settles O13: `SendByte` performs the events of its byte, which are forty and end on bit 7. -/
theorem sendByteClocksLsbFirst : Obligations.SendByteClocksLsbFirst := by
  intro v s
  refine ⟨sentByteEvents s.cfg v, rfl, sentByteEvents_length _ _, ?_⟩
  rw [sendByte_eq]
  exact performed_of_pins (sentByteEvents_length _ _) (applyEvents_sentByte _ _ _)

/-- Settles O14: `ReadByte` performs the events of the byte of the next eight answers. -/
theorem readByteSamplesLsbFirst : Obligations.ReadByteSamplesLsbFirst := by
  intro s
  refine ⟨byteOfBits (upcomingBits 8 s.answers s.samples), readByteEvents s.cfg _,
    fun i hi => getLsbD_byteOfBits (upcomingBits_length _ _ _) hi, rfl, ?_⟩
  rw [readByte_eq, performed_of_pins (readByteEvents_length _ _) (applyEvents_readByte _ _ _)]
  rfl

/-- A write frame performs its events and leaves `dio` at bit 7 of the last byte sent (R87). -/
theorem performed_writeFrameEvents (d : Nat) (c : Byte) (p : List Byte) (s : State) :
    performed (writeFrameEvents s.cfg d c p) s = { s with
      trace := s.trace ++ writeFrameEvents s.cfg d c p
      seqPos := s.seqPos.map (· + (2 + 40 * (1 + p.length)))
      pins := { clk := false, dio := (p.getLastD c).getLsbD 7, stb := s.pins.stb.set d true } } :=
  performed_of_pins (by rw [writeFrameEvents_length]; omega) (applyEvents_writeFrame _ _ _ _ _)

/-- Settles O15: a write frame performs its events, and a command frame is one with no payload. -/
theorem commandAndWriteFrames : Obligations.CommandAndWriteFrames := by
  refine ⟨fun d c p s => ?_, fun d c s => ?_⟩
  · rw [writeFrame_eq, performed_writeFrameEvents, writeFrameEvents]
  · rw [cmdFrame_eq, performed_writeFrameEvents, writeFrameEvents, List.flatMap_singleton]
    rfl

/-- Settles O16: a read frame performs its events, which carry the bytes of the next `8 * n` answers. -/
theorem readFrameReleasesAndReads : Obligations.ReadFrameReleasesAndReads := by
  intro d c n s
  have hlen : (upcomingBytes n s.answers s.samples).length = n := upcomingBytes_length _ _ _
  refine ⟨upcomingBytes n s.answers s.samples, hlen, rfl, ?_⟩
  rw [readFrame_eq, performed_of_pins (n := 44 + 40 * n) (by rw [readFrameEvents_length, hlen])
    (applyEvents_readFrame _ _ _ _ _)]
  rfl

/-! ### A receiver at either clock edge (R91, R180) -/

/-- From CLK low, a receiver at either edge takes in the bit sent and finds CLK low again. -/
theorem latchedBits_sentBit (edge : Edge) (cfg : Config) (dio b : Bit) (es : List Event) :
    latchedBits edge false dio (sentBitEvents cfg b ++ es) = b :: latchedBits edge false b es := by
  cases edge <;> rfl

/-- From CLK low, a receiver at either edge takes in the bits sent in order. -/
theorem latchedBits_sentBits (edge : Edge) (cfg : Config) (dio : Bit) (bs : List Bit) :
    latchedBits edge false dio (bs.flatMap (sentBitEvents cfg)) = bs := by
  induction bs generalizing dio with
  | nil => rfl
  | cons b bs ih => rw [List.flatMap_cons, latchedBits_sentBit, ih]

/-- From CLK high, the first pulse has its falling edge only. -/
theorem latchedBits_sentBits_of_high (cfg : Config) (dio b : Bit) (bs : List Bit) :
    latchedBits .falling true dio ((b :: bs).flatMap (sentBitEvents cfg)) = b :: bs ∧
      latchedBits .rising true dio ((b :: bs).flatMap (sentBitEvents cfg)) = bs :=
  ⟨congrArg (b :: ·) (latchedBits_sentBits .falling cfg b bs), latchedBits_sentBits .rising cfg b bs⟩

/-- Settles O18: a byte is sent as its bits, and only the first pulse can find CLK high. -/
theorem eitherEdgeReceivesTheByte : Obligations.EitherEdgeReceivesTheByte :=
  fun cfg v dio =>
    ⟨fun edge => latchedBits_sentBits edge cfg dio (byteBits v), latchedBits_sentBits_of_high cfg dio _ _⟩

end Sys2Proof.Machine

namespace Sys2Proof.Machine

/-! ### At most one chip is selected (R27) -/

/-- Pulling a select latch that is high low selects one chip more. -/
theorem countP_low_set_false {stb : List Bit} {d : Nat} (hd : d < stb.length) (h : stb.countP (fun v => !v) = 0) :
    (stb.set d false).countP (fun v => !v) = 1 := by
  have hnot : stb[d] = true := by
    simpa using List.countP_eq_zero.mp h stb[d] (List.getElem_mem hd)
  simp [List.countP_set, hd, h, hnot]

/-- Raising the one select latch that is low leaves none low. -/
theorem countP_low_set_true {stb : List Bit} {d : Nat} (hd : stb[d]? = some false)
    (h : stb.countP (fun v => !v) = 1) : (stb.set d true).countP (fun v => !v) = 0 := by
  obtain ⟨hlt, hlow⟩ := List.getElem?_eq_some_iff.mp hd
  simp [List.countP_set, hlt, h, hlow]

/-- An event the discipline allows leaves at most one chip selected. -/
theorem lowSelects_applyEvent {p : Pins} {e : Event} (h : eventAllowed p e = true) :
    lowSelects (applyEvent p e) ≤ 1 := by
  cases e with
  | stb d v =>
    cases v
    · obtain ⟨hd, hnone⟩ : d < p.stb.length ∧ lowSelects p = 0 := by simpa [eventAllowed] using h
      exact (countP_low_set_false hd hnone).le
    · obtain ⟨hone, hd⟩ : lowSelects p = 1 ∧ p.stb[d]? = some false := by simpa [eventAllowed] using h
      exact (countP_low_set_true hd hone).le.trans zero_le_one
  | clk v | dio v | delay v => exact (beq_iff_eq.mp h).le
  | sample b =>
    obtain ⟨hone, -⟩ : lowSelects p = 1 ∧ p.dio = true := by simpa [eventAllowed] using h
    exact hone.le

/-- An event that changes the clock or the data latch is a write of one, which the discipline allows only while exactly
one chip is selected. -/
theorem lowSelects_eq_one_of_change {p : Pins} {e : Event} (h : eventAllowed p e = true)
    (hc : (applyEvent p e).clk ≠ p.clk ∨ (applyEvent p e).dio ≠ p.dio) : lowSelects p = 1 := by
  cases e with
  | clk v | dio v => exact beq_iff_eq.mp h
  | stb | delay | sample => exact (hc.elim (absurd rfl) (absurd rfl))

/-- At every point of a list of lawful events that starts with at most one chip selected, at most one is, and the next
event changes the shared lines only while exactly one is. -/
theorem lowSelects_of_busLawful {p : Pins} {es : List Event} (hp : lowSelects p ≤ 1) (h : busLawful p es = true)
    (k : Nat) : lowSelects (applyEvents p (es.take k)) ≤ 1 ∧
      ((applyEvents p (es.take (k + 1))).clk ≠ (applyEvents p (es.take k)).clk ∨
        (applyEvents p (es.take (k + 1))).dio ≠ (applyEvents p (es.take k)).dio →
        lowSelects (applyEvents p (es.take k)) = 1) := by
  induction es generalizing p k with
  | nil => simpa using hp
  | cons e es ih =>
    obtain ⟨he, hes⟩ := (Bool.and_eq_true _ _).mp h
    cases k with
    | zero => exact ⟨hp, lowSelects_eq_one_of_change he⟩
    | succ k => exact ih (lowSelects_applyEvent he) hes k

/-- Settles O43: a lawful trace starts from the latches after reset, which select no chip. -/
theorem atMostOneChipIsSelected : Obligations.AtMostOneChipIsSelected := by
  rintro s ⟨-, hbus⟩ k
  have hreset : lowSelects (Pins.initial s.nDev) ≤ 1 := (lowSelects_idle _ _ _).le.trans zero_le_one
  obtain ⟨hle, hchange⟩ := lowSelects_of_busLawful hreset hbus k
  exact ⟨hle, by rintro _ _ rfl rfl; exact hchange⟩

end Sys2Proof.Machine

namespace Sys2Proof.Machine

/-! ### Event counts and least durations (R93) -/

/-- Lists that each count `n` events of a kind count `n` times their number together. -/
theorem countP_flatMap_const {α : Type} {p : Event → Bool} {f : α → List Event} {n : Nat} (xs : List α)
    (h : ∀ x, (f x).countP p = n) : (xs.flatMap f).countP p = n * xs.length := by
  simp [List.countP_flatMap, Function.comp_def, h, Nat.mul_comm]

/-- One list of events after another lasts as long as the two together (R82). -/
@[simp] theorem leastDuration_append (es es' : List Event) :
    leastDuration (es ++ es') = leastDuration es + leastDuration es' := by
  induction es with
  | nil => simp [leastDuration]
  | cons e es ih => cases e <;> simp [leastDuration, ih, Nat.add_assoc]

/-- Lists that each last `n` last `n` times their number together. -/
theorem leastDuration_flatMap_const {α : Type} {f : α → List Event} {n : Nat} (xs : List α)
    (h : ∀ x, leastDuration (f x) = n) : leastDuration (xs.flatMap f) = n * xs.length := by
  induction xs with
  | nil => rfl
  | cons x xs ih => rw [List.flatMap_cons, leastDuration_append, h, ih, List.length_cons, Nat.mul_succ, Nat.add_comm]

@[simp] theorem occurrences_append (e : Event) (es es' : List Event) :
    occurrences e (es ++ es') = occurrences e es + occurrences e es' := List.countP_append

@[simp] theorem occurrences_cons (e e' : Event) (es : List Event) :
    occurrences e (e' :: es) = occurrences e es + if e' = e then 1 else 0 := by
  simp [occurrences, List.countP_cons]

@[simp] theorem occurrences_nil (e : Event) : occurrences e [] = 0 := rfl

section Bytes

variable (cfg : Config) (v : Byte)

@[simp] theorem occurrences_clk_pulse (b : Bit) : occurrences (.clk b) (pulseEvents cfg) = 1 := by
  cases b <;> rfl

@[simp] theorem occurrences_stb_pulse (d : Nat) (b : Bit) : occurrences (.stb d b) (pulseEvents cfg) = 0 := rfl

@[simp] theorem occurrences_settle_pulse : occurrences (.delay cfg.tSettle) (pulseEvents cfg) = 2 := by
  simp [pulseEvents]

/-- An event that is not the one that leads a bit, `DIO` or `SAMPLE`, stands in a byte as often as in its eight
pulses. -/
theorem occurrences_byte (e : Event) {lead : Bit → Event} (h : ∀ b, lead b ≠ e) :
    occurrences e ((byteBits v).flatMap fun b => lead b :: pulseEvents cfg) = occurrences e (pulseEvents cfg) * 8 :=
  countP_flatMap_const (byteBits v) fun b => (occurrences_cons e (lead b) _).trans (by rw [if_neg (h b), Nat.add_zero])

theorem occurrences_sentByte {e : Event} (h : ∀ b, .dio b ≠ e) :
    occurrences e (sentByteEvents cfg v) = occurrences e (pulseEvents cfg) * 8 := occurrences_byte cfg v e h

theorem occurrences_readByte {e : Event} (h : ∀ b, .sample b ≠ e) :
    occurrences e (readByteEvents cfg v) = occurrences e (pulseEvents cfg) * 8 := occurrences_byte cfg v e h

@[simp] theorem occurrences_clk_sentByte (b : Bit) : occurrences (.clk b) (sentByteEvents cfg v) = 8 := by
  rw [occurrences_sentByte, occurrences_clk_pulse]; nofun

@[simp] theorem occurrences_clk_readByte (b : Bit) : occurrences (.clk b) (readByteEvents cfg v) = 8 := by
  rw [occurrences_readByte, occurrences_clk_pulse]; nofun

@[simp] theorem occurrences_stb_sentByte (d : Nat) (b : Bit) : occurrences (.stb d b) (sentByteEvents cfg v) = 0 := by
  rw [occurrences_sentByte, occurrences_stb_pulse]; nofun

@[simp] theorem occurrences_stb_readByte (d : Nat) (b : Bit) : occurrences (.stb d b) (readByteEvents cfg v) = 0 := by
  rw [occurrences_readByte, occurrences_stb_pulse]; nofun

theorem occurrences_settle_sentByte : occurrences (.delay cfg.tSettle) (sentByteEvents cfg v) = 16 := by
  rw [occurrences_sentByte, occurrences_settle_pulse]; nofun

theorem occurrences_settle_readByte : occurrences (.delay cfg.tSettle) (readByteEvents cfg v) = 16 := by
  rw [occurrences_readByte, occurrences_settle_pulse]; nofun

theorem countP_isDio_sentByte : (sentByteEvents cfg v).countP Event.isDio = 8 :=
  countP_flatMap_const (n := 1) (byteBits v) fun _ => rfl

theorem countP_isSample_readByte : (readByteEvents cfg v).countP Event.isSample = 8 :=
  countP_flatMap_const (n := 1) (byteBits v) fun _ => rfl

@[simp] theorem leastDuration_sentByte : leastDuration (sentByteEvents cfg v) = 16 * cfg.tSettle := by
  have hbit (b : Bit) : leastDuration (sentBitEvents cfg b) = 2 * cfg.tSettle := (Nat.two_mul _).symm
  rw [sentByteEvents, leastDuration_flatMap_const _ hbit, byteBits_length]
  omega

@[simp] theorem leastDuration_readByte : leastDuration (readByteEvents cfg v) = 16 * cfg.tSettle := by
  have hbit (b : Bit) : leastDuration (readBitEvents cfg b) = 2 * cfg.tSettle := (Nat.two_mul _).symm
  rw [readByteEvents, leastDuration_flatMap_const _ hbit, byteBits_length]
  omega

end Bytes

section Frames

variable (cfg : Config) (d : Nat) (c : Byte) (vs : List Byte)

theorem occurrences_stb_writeFrame (b : Bit) : occurrences (.stb d b) (writeFrameEvents cfg d c vs) = 1 := by
  have hbytes : occurrences (.stb d b) (vs.flatMap (sentByteEvents cfg)) = 0 * vs.length :=
    countP_flatMap_const vs fun v => occurrences_stb_sentByte cfg v d b
  cases b <;> simp [writeFrameEvents, hbytes]

theorem occurrences_stb_readFrame (b : Bit) : occurrences (.stb d b) (readFrameEvents cfg d c vs) = 1 := by
  have hbytes : occurrences (.stb d b) (vs.flatMap (readByteEvents cfg)) = 0 * vs.length :=
    countP_flatMap_const vs fun v => occurrences_stb_readByte cfg v d b
  cases b <;> simp [readFrameEvents, hbytes]

theorem occurrences_clk_writeFrame (b : Bit) :
    occurrences (.clk b) (writeFrameEvents cfg d c vs) = 8 * (1 + vs.length) := by
  have hbytes : occurrences (.clk b) (vs.flatMap (sentByteEvents cfg)) = 8 * vs.length :=
    countP_flatMap_const vs fun v => occurrences_clk_sentByte cfg v b
  simp [writeFrameEvents, hbytes, Nat.mul_add]

theorem occurrences_clk_readFrame (b : Bit) :
    occurrences (.clk b) (readFrameEvents cfg d c vs) = 8 * (1 + vs.length) := by
  have hbytes : occurrences (.clk b) (vs.flatMap (readByteEvents cfg)) = 8 * vs.length :=
    countP_flatMap_const vs fun v => occurrences_clk_readByte cfg v b
  simp [readFrameEvents, hbytes, Nat.mul_add]

theorem leastDuration_writeFrame :
    leastDuration (writeFrameEvents cfg d c vs) = 16 * cfg.tSettle * (1 + vs.length) := by
  have hbytes := leastDuration_flatMap_const vs (leastDuration_sentByte cfg)
  simp [writeFrameEvents, leastDuration, hbytes, Nat.mul_add]

theorem leastDuration_readFrame : leastDuration (readFrameEvents cfg d c vs) =
    16 * cfg.tSettle + cfg.tGuard + 16 * cfg.tSettle * vs.length := by
  have hbytes := leastDuration_flatMap_const vs (leastDuration_readByte cfg)
  simp [readFrameEvents, leastDuration, hbytes, Nat.add_assoc]

end Frames

/-- Settles O17: the counts of a byte are eight times those of a bit, and a frame's those of its bytes and selects. -/
theorem byteAndFrameCounts : Obligations.ByteAndFrameCounts := by
  refine ⟨fun cfg v => ?_, fun cfg d c p => ?_, fun cfg d c out => ?_⟩
  · exact ⟨occurrences_clk_sentByte cfg v true, occurrences_clk_sentByte cfg v false,
      occurrences_settle_sentByte cfg v, countP_isDio_sentByte cfg v, leastDuration_sentByte cfg v,
      occurrences_clk_readByte cfg v true, occurrences_clk_readByte cfg v false, occurrences_settle_readByte cfg v,
      countP_isSample_readByte cfg v, leastDuration_readByte cfg v⟩
  · exact ⟨occurrences_stb_writeFrame cfg d c p false, occurrences_stb_writeFrame cfg d c p true,
      occurrences_clk_writeFrame cfg d c p true, leastDuration_writeFrame cfg d c p⟩
  · exact ⟨occurrences_stb_readFrame cfg d c out false, occurrences_stb_readFrame cfg d c out true,
      occurrences_clk_readFrame cfg d c out true, leastDuration_readFrame cfg d c out⟩

end Sys2Proof.Machine

namespace Sys2Proof.Machine

/-! ### The events of an instruction: their number, and what samples decide of them (R130, R133) -/

/-- An instruction a check refuses returns `InvalidArgument` (R154). -/
theorem exec_of_rejected {i : Instr} {s : State} (hb : s.busy = false) (ha : accepted s.cfg s.nDev i = false) :
    exec i s = .next (complete (.error .invalidArgument) (accept s)) := by
  rw [exec_eq_operation, ha, require_false, operation_failed _ _ _ hb]

/-- An instruction whose checks pass, by the shadow registers of its slot (R120). -/
theorem exec_of_accepted {i : Instr} {s : State} {v : Dev} (hb : s.busy = false)
    (ha : accepted s.cfg s.nDev i = true) (hv : s.devs[i.slot]? = some v) :
    exec i s = .next (instrState i v s) := by
  rw [exec_eq_operation, ha, require_true, operation_passed _ _ hb, instrBody_eq i v (accept s) hv]
  rfl

/-- The mode-setting events are the forty-two of a command frame, or none. -/
theorem modeEvents_length (cfg : Config) (d : Nat) (m : AddressMode) (v : Dev) :
    (modeEvents cfg d m v).length = if v.am = m then 0 else 42 := by
  unfold modeEvents
  split
  · rfl
  · exact writeFrameEvents_length _ _ _ _

/-- An accepted instruction has as many events as the table of R133 says. -/
theorem instrEvents_length (cfg : Config) (v : Dev) {out : List Byte} (i : Instr) (h : out.length = cfg.keyBytes) :
    (instrEvents cfg v out i).length = eventCount cfg v i := by
  cases i with
  | attach => rfl
  | dataRead | readKey => rw [instrEvents, readFrameEvents_length, h, eventCount]
  | displayAuto | displayFixed =>
    rw [instrEvents, List.length_append, modeEvents_length, writeFrameEvents_length, eventCount]
    cases v.am <;> simp +arith
  | _ => exact writeFrameEvents_length _ _ _ _

/-- Settles O33: an accepted instruction appends its events, a rejected one none. -/
theorem eventListLengths : Obligations.EventListLengths := by
  refine fun i s hb => ⟨fun v hv ha => ?_, fun ha => ?_⟩
  · exact ⟨_, _, exec_of_accepted hb ha hv, instrState_trace i v s,
      instrEvents_length _ v i (upcomingBytes_length _ _ _)⟩
  · exact ⟨_, exec_of_rejected hb ha, rfl⟩

/-- The bytes read show in their events only inside the samples: of the rest their number decides. -/
theorem map_shape_readBytes (cfg : Config) {out out' : List Byte} (h : out.length = out'.length) :
    (out.flatMap (readByteEvents cfg)).map Event.shape = (out'.flatMap (readByteEvents cfg)).map Event.shape := by
  have hzero (vs : List Byte) : (vs.flatMap (readByteEvents cfg)).map Event.shape =
      (List.replicate vs.length (readByteEvents cfg 0)).flatten := by
    induction vs with
    | nil => rfl
    | cons v vs ih =>
      rw [List.flatMap_cons, List.map_append, ih, List.length_cons, List.replicate_succ, List.flatten_cons]
      rfl
  rw [hzero, hzero, h]

/-- The events of an instruction are the same but for the samples, whatever bytes its read frame returns. -/
theorem map_shape_instrEvents (cfg : Config) (v : Dev) {out out' : List Byte} (i : Instr)
    (h : out.length = out'.length) :
    (instrEvents cfg v out i).map Event.shape = (instrEvents cfg v out' i).map Event.shape := by
  cases i with
  | dataRead | readKey =>
    simp only [instrEvents, readFrameEvents, List.map_append, List.map_cons, map_shape_readBytes cfg h]
  | _ => rfl

/-- Settles O40: the checks, the events but for the bits sampled, and the registers written are functions of the
configuration and the shadow registers. -/
theorem samplesDecideNothing : Obligations.SamplesDecideNothing := by
  intro i s s' hb hb' hcfg hdevs
  have hacc : accepted s'.cfg s'.nDev i = accepted s.cfg s.nDev i := by rw [State.nDev, hcfg, hdevs]
  cases ha : accepted s.cfg s.nDev i
  · exact ⟨_, _, [], [], exec_of_rejected hb ha, exec_of_rejected hb' (hacc.trans ha), (List.append_nil _).symm,
      (List.append_nil _).symm, rfl, hdevs⟩
  · obtain ⟨v, hv⟩ : ∃ v, s.devs[i.slot]? = some v :=
      ⟨_, List.getElem?_eq_getElem (slot_lt_of_accepted _ _ i ha)⟩
    refine ⟨_, _, _, _, exec_of_accepted hb ha hv, exec_of_accepted hb' (hacc.trans ha) (hdevs ▸ hv),
      instrState_trace _ _ _, instrState_trace _ _ _, ?_, ?_⟩
    · rw [hcfg]
      refine map_shape_instrEvents _ _ i ?_
      rw [upcomingKeys, upcomingKeys, upcomingBytes_length, upcomingBytes_length, hcfg]
    · rw [instrState_devs, instrState_devs, hdevs]

/-! ### The latches after a frame (R90) -/

/-- The data latch after an instruction that finds `dio` on the line: the table of R90, and for ATTACH, which performs
no frame, the latch it finds (R121). -/
def dioAfter (dio : Bit) : Instr → Bit
  | .mode _ _ => false
  | .dataInc _ => false
  | .dataFixed _ => false
  | .dataRead _ => true
  | .addr _ _ payload => payload.getLast?.elim true (·.getLsbD 7)
  | .disp _ _ _ => true
  | .attach _ => dio
  | .reset _ => false
  | .displayAuto _ _ bytes => bytes.getLast?.elim true (·.getLsbD 7)
  | .displayFixed _ _ b => b.getLsbD 7
  | .readKey _ => true
  | .setPulse _ _ => true
  | .setDisplay _ _ => true
  | .setMode _ _ => false

/-- Bit 7 of a mode byte is 0 (R63). -/
theorem encMode_bit7 : ∀ m : BitVec 2, (encMode m).getLsbD 7 = false := by decide

/-- Bit 7 of a byte of the data class is 0 (R61). -/
theorem bit7_of_dataClass {c : Byte} (h : c.extractLsb' 6 2 = 1) : c.getLsbD 7 = false := by
  revert c; decide +kernel

/-- Bit 7 of a display-control byte is 1, whatever the place of the flag (R65). -/
theorem encDisp_bit7 (cfg : Config) (don : Bool) (pw : BitVec 3) : (encDisp cfg don pw).getLsbD 7 = true := by
  simp [encDisp, Config.classDisp]

/-- Bit 7 of the last byte of a write frame on an address: that of the last payload byte, and 1 of the bare address
(R66). -/
theorem bit7_getLastD_encAddr (a : Byte) (vs : List Byte) :
    (vs.getLastD (encAddr a)).getLsbD 7 = vs.getLast?.elim true (·.getLsbD 7) := by
  cases h : vs.getLast? with
  | none => simp [List.getLastD_eq_getLast?, h, encAddr, Config.classAddr]
  | some b => simp [List.getLastD_eq_getLast?, h]

/-- An accepted instruction leaves the data latch R90 says. -/
theorem instrState_dio {s : State} (hbytes : s.cfg.bytesOk = true) (i : Instr) (v : Dev) :
    (instrState i v s).pins.dio = dioAfter s.pins.dio i := by
  obtain ⟨hinc, hfixed, -⟩ := bytesOk_elim hbytes
  rw [instrState_pins]
  cases i <;> simp only [instrEvents, instrConfigure, dioAfter, applyEvents_modeEvents_writeFrame,
    applyEvents_writeFrame, applyEvents_readFrame, applyEvents_nil, configureSTB_pins, List.getLastD_nil]
  case mode | setMode => exact encMode_bit7 _
  case dataInc | reset => exact bit7_of_dataClass hinc
  case dataFixed => exact bit7_of_dataClass hfixed
  case disp | setPulse | setDisplay => exact encDisp_bit7 _ _ _
  case addr | displayAuto => exact bit7_getLastD_encAddr _ _
  case displayFixed => rfl

/-- An accepted instruction but ATTACH ends in a frame, which leaves the clock low. -/
theorem instrState_clk {i : Instr} (hattach : ∀ d, i ≠ .attach d) (v : Dev) (s : State) :
    (instrState i v s).pins.clk = false := by
  rw [instrState_pins]
  cases i with
  | attach d => exact absurd rfl (hattach d)
  | dataRead | readKey => rw [instrEvents, applyEvents_readFrame]
  | displayAuto | displayFixed => rw [instrEvents, applyEvents_modeEvents_writeFrame, applyEvents_writeFrame]
  | _ => rw [instrEvents, applyEvents_writeFrame]

/-- Settles O38: the data latch is read off the table of R90, class by class. -/
theorem latchesAfterAFrame : Obligations.LatchesAfterAFrame := by
  refine ⟨fun i s t hbytes ha hattach h => ?_, fun cfg n => ⟨rfl, rfl⟩⟩
  obtain ⟨-, ⟨hrej, -⟩ | ⟨-, v, -, rfl⟩⟩ := exec_next_cases h
  · rw [ha] at hrej; cases hrej
  · rw [instrState_dio hbytes]
    refine ⟨instrState_clk hattach v s, instrState_stb i v s, ?_, ?_, ?_, ?_, ?_, ?_⟩
    · rintro d (rfl | rfl | rfl) <;> rfl
    · rintro d m (rfl | rfl) <;> rfl
    · rintro d don pw w (rfl | rfl | rfl) <;> rfl
    · rintro d (rfl | rfl) <;> rfl
    · rintro d a a' (rfl | rfl) <;> rfl
    · rintro d a a' p b (rfl | rfl | rfl) <;> simp [dioAfter]

end Sys2Proof.Machine

namespace Sys2Proof

/-! ### The encoder and its inverse (R107, R108) -/

/-- A byte without its upper six bits is the encoding of its lower two as a mode (R63). -/
theorem encMode_extractLsb' : ∀ {c : Byte}, c &&& 0xFC = 0x00 → encMode (c.extractLsb' 0 2) = c := by
  decide +kernel

/-- A byte of class 10 whose bits 5:4 are clear is the encoding of its bit 3 and its lower three bits as display
control (R65). -/
theorem encDisp_extractLsb' {cfg : Config} (h : cfg.bytesOk = true) {c : Byte} (hc : c &&& 0xF0 = 0x80) :
    encDisp cfg (c.getLsbD 3) (c.extractLsb' 0 3) = c := by
  obtain ⟨-, -, -, -, -, -, hbit⟩ := bytesOk_elim h
  rw [encDisp, hbit]
  clear h hbit
  revert c
  decide +kernel

/-- A byte of class 11 whose bits 5:4 are clear is the encoding of its lower four bits as an address (R66). -/
theorem encAddr_extractLsb' : ∀ {c : Byte}, c &&& 0xF0 = 0xC0 →
    encAddr ((c.extractLsb' 0 4).zeroExtend 8) = c := by
  decide +kernel

/-- A byte that decodes to a command is that command's encoding (R108). -/
theorem encodeCommand_of_decodeCommand {cfg : Config} (h : cfg.bytesOk = true) {c : Byte} {k : Command}
    (hk : decodeCommand cfg c = some k) : encodeCommand cfg k = c := by
  unfold decodeCommand at hk
  split_ifs at hk with hmode hinc hfixed hread hdisp haddr <;> cases hk
  · exact encMode_extractLsb' hmode
  · exact hinc.symm
  · exact hfixed.symm
  · exact hread.symm
  · exact encDisp_extractLsb' h hdisp
  · exact encAddr_extractLsb' haddr

/-- `Dec` is the partial inverse of the encoder (R108). -/
theorem decodeCommand_eq_some_iff {cfg : Config} (h : cfg.bytesOk = true) {c : Byte} {k : Command} :
    decodeCommand cfg c = some k ↔ encodeCommand cfg k = c :=
  ⟨encodeCommand_of_decodeCommand h, fun hc => hc ▸ decodeCommand_encodeCommand cfg k h⟩

/-- Settles O9: `Dec` is the partial inverse of the encoder, so it answers nothing exactly off the encoder's range. -/
theorem reservedBytesDecodeToNothing : Obligations.ReservedBytesDecodeToNothing := by
  refine fun cfg c h => ⟨?_, fun k => decodeCommand_eq_some_iff h⟩
  rw [Option.eq_none_iff_forall_ne_some]
  exact forall_congr' fun k => not_congr (decodeCommand_eq_some_iff h)

/-- Settles O11: an encoder with an inverse is injective, and the layout of each byte gives its class bits. -/
theorem encoderIsInjective : Obligations.EncoderIsInjective := by
  refine ⟨fun cfg k k' h hk => ?_, fun cfg m a don pw h => ?_, by decide⟩
  · have hdec := decodeCommand_encodeCommand cfg k h
    rw [hk, decodeCommand_encodeCommand cfg k' h] at hdec
    exact (Option.some.inj hdec).symm
  · obtain ⟨hinc, hfixed, hread, -⟩ := bytesOk_elim h
    obtain ⟨-, hmode, -⟩ := encMode_layout m
    obtain ⟨-, hdisp, -⟩ := encDisp_layout h don pw
    obtain ⟨-, haddr, -⟩ := encAddr_layout a
    exact ⟨hmode, hinc, hfixed, hread, hdisp, haddr⟩

end Sys2Proof

namespace Sys2Proof.Machine

/-! ### The display-control byte (R106) -/

/-- The display-control byte of a slot is that of its two registers (R106). -/
theorem displayControl_of_getElem? {d : Nat} {v : Dev} {s : State} (h : s.devs[d]? = some v) :
    displayControl d s = encDisp s.cfg v.don v.pw := by
  rw [displayControl, readDev_of_getElem? d v s h]

/-- The display-control byte of an accepted instruction's slot afterwards is that of the registers it leaves. -/
theorem displayControl_instrState {i : Instr} {v : Dev} {s : State} (h : s.devs[i.slot]? = some v) :
    displayControl i.slot (instrState i v s) = encDisp s.cfg (instrDev v i).don (instrDev v i).pw := by
  rw [displayControl_of_getElem? (v := instrDev v i), instrState_cfg]
  rw [instrState_devs, List.getElem?_set_self (lt_of_getElem? _ _ _ h)]

/-- Settles O37: the byte is computed from the two registers, and each setter sends it after it has stored. -/
theorem displayControlByteFollowsTheRegisters : Obligations.DisplayControlByteFollowsTheRegisters := by
  refine ⟨fun d s s' v v' hcfg hv hv' hdon hpw => ?_, fun d n hd => ?_, fun d i on w s t hd hi h => ?_⟩
  · rw [displayControl_of_getElem? hv, displayControl_of_getElem? hv', hcfg, hdon, hpw]
  · have hv : (State.powerOn Config.tm1638 n).devs[d]? = some Dev.initial := List.getElem?_replicate_of_lt hd
    have hbyte : encDisp Config.tm1638 Dev.initial.don Dev.initial.pw = 0x84 := by decide
    exact (displayControl_of_getElem? hv).trans hbyte
  · obtain ⟨-, ⟨hrej, -⟩ | ⟨-, v, hv, rfl⟩⟩ := exec_next_cases h
    · obtain rfl | rfl := hi <;> exact absurd hd (of_decide_eq_false hrej)
    · have hslot : i.slot = d := by obtain rfl | rfl := hi <;> rfl
      have hsent : instrEvents s.cfg v (upcomingKeys s) i =
          writeFrameEvents s.cfg d (encDisp s.cfg (instrDev v i).don (instrDev v i).pw) [] := by
        obtain rfl | rfl := hi <;> rfl
      rw [instrState_trace, hsent, ← displayControl_instrState hv, hslot]

/-! ### The wire commands on their own (R68, R100 to R105) -/

/-- An idle block that accepts, performs events and returns a result has changed nothing else (R120). -/
theorem complete_performed_accept {s : State} (hb : s.busy = false) (r : Result) (es : List Event) :
    complete r (performed es (accept s)) = returned s es (applyEvents s.pins es) s.devs r := by
  rw [returned, hb]
  rfl

section Frame

variable {i : Instr} {s : State} {d : Nat} {c : Byte}

/-- An accepted instruction whose whole body is one write frame (R87). -/
theorem exec_of_writeFrame {p : List Byte} (hb : s.busy = false) (ha : accepted s.cfg s.nDev i = true)
    (hbody : instrBody i (accept s) = (.ok, writeFrame d c p (accept s))) :
    exec i s = .next (returned s (writeFrameEvents s.cfg d c p) (framed s.pins d ((p.getLastD c).getLsbD 7)) s.devs
      .ok) := by
  rw [exec_eq_operation, ha, require_true, operation_passed _ _ hb, hbody, writeFrame_eq, accept_cfg,
    complete_performed_accept hb, applyEvents_writeFrame, framed]

/-- An accepted instruction whose whole body is one key read (R88). -/
theorem exec_of_readFrame (hb : s.busy = false) (ha : accepted s.cfg s.nDev i = true)
    (hbody : instrBody i (accept s) = (.okBytes (readFrame d c s.cfg.keyBytes (accept s)).1,
      (readFrame d c s.cfg.keyBytes (accept s)).2)) :
    exec i s = .next (returned (keysTaken s) (readFrameEvents s.cfg d c (upcomingKeys s)) (framed s.pins d true) s.devs
      (.okBytes (upcomingKeys s))) := by
  have haccept : answered (8 * s.cfg.keyBytes) (accept s) = accept (keysTaken s) := rfl
  have hidle : (keysTaken s).busy = false := hb
  rw [exec_eq_operation, ha, require_true, operation_passed _ _ hb, hbody, readFrame_eq, haccept,
    complete_performed_accept hidle, applyEvents_readFrame]
  rfl

end Frame

/-- A mode byte is the mode (R100). -/
theorem encMode_eq_ofNat (m : BitVec 2) : encMode m = BitVec.ofNat 8 m.toNat := by
  rw [BitVec.ofNat_toNat]
  exact BitVec.zero_or

/-- An address byte is `0xC0` and the address: the class bits are not among the four of the address (R104). -/
theorem toNat_encAddr : ∀ a : BitVec 4, (encAddr (a.zeroExtend 8)).toNat = 0xC0 + a.toNat := by decide

/-- Settles O27: the body of each of the four is one command frame, a write frame with no payload. -/
theorem commandFrameInstructions : Obligations.CommandFrameInstructions := by
  intro d s hb hd
  have hslot : decide (d < s.nDev) = true := decide_eq_true hd
  refine ⟨fun m hmode => ?_, exec_of_writeFrame hb hslot rfl, exec_of_writeFrame hb hslot rfl, fun don pw => ?_⟩
  · have haccepted : accepted s.cfg s.nDev (.mode d m) = true := by rw [accepted, hmode, hslot, Bool.and_self]
    have hexec := exec_of_writeFrame hb haccepted (c := encMode m) (p := []) rfl
    rwa [List.getLastD_nil, encMode_bit7, encMode_eq_ofNat] at hexec
  · exact ⟨encDisp s.cfg don pw, by rw [BitVec.ofNat_toNat]; rfl, exec_of_writeFrame hb hslot rfl⟩

/-- Settles O28: the body of DATA_READ is one key read, and that of ADDR one write frame. -/
theorem readAndWriteFrameInstructions : Obligations.ReadAndWriteFrameInstructions := by
  intro d s hb hd
  have hslot : decide (d < s.nDev) = true := decide_eq_true hd
  refine ⟨exec_of_readFrame hb hslot rfl, fun a payload ha hlen => ?_⟩
  have haccepted : accepted s.cfg s.nDev (.addr d a payload) = true := by
    rw [accepted, hslot, decide_eq_true ha, decide_eq_true hlen, Bool.and_self, Bool.and_self]
  exact ⟨encAddr (a.zeroExtend 8), toNat_encAddr a, exec_of_writeFrame hb haccepted rfl⟩

end Sys2Proof.Machine

namespace Sys2Proof.Machine

/-! ### The host operations: result, next state and frame (R120 to R128) -/

/-- Settles O5: an operation that finds the block busy has no step, whatever its checks and its body (D3). -/
theorem busyBlockIsStuck : Obligations.BusyBlockIsStuck := by
  intro i s hb
  rw [exec_eq_operation, operation_busy _ _ _ hb]

/-- A rejected instruction leaves the state as it was but for its result (R154). -/
theorem exec_eq_rejected {i : Instr} {s : State} (hb : s.busy = false) (ha : accepted s.cfg s.nDev i = false) :
    exec i s = .next (rejected s) := by
  rw [exec_of_rejected hb ha, rejected, complete, accept, ← hb]

/-- The whole state after an accepted instruction: its events, the latches `p` they leave, the registers it writes to its
slot, its result, and the answers its samples have taken. -/
theorem exec_eq_returned {i : Instr} {s : State} {v : Dev} {p : Pins} (hb : s.busy = false)
    (ha : accepted s.cfg s.nDev i = true) (hv : s.devs[i.slot]? = some v)
    (hp : applyEvents (instrConfigure s i).pins (instrEvents s.cfg v (upcomingKeys s) i) = p) :
    exec i s = .next (returned (answered (instrSamples s.cfg i) s) (instrEvents s.cfg v (upcomingKeys s) i) p
      (s.devs.set i.slot (instrDev v i)) (instrResult (upcomingKeys s) i)) := by
  have hidle : (answered (instrSamples s.cfg i) s).busy = false := hb
  rw [exec_of_accepted hb ha hv, ← hp, instrState, returned, hidle]
  generalize instrEvents s.cfg v (upcomingKeys s) i = es
  generalize instrDev v i = v'
  cases i <;> rfl

/-- Settles O19: ATTACH performs no event; it configures the select latch and writes the registers after reset. -/
theorem attachInitialisesTheSlot : Obligations.AttachInitialisesTheSlot := by
  refine fun d s hb => ⟨fun hd => ?_, fun hd => exec_eq_rejected hb (decide_eq_false hd.not_gt)⟩
  exact exec_eq_returned hb (decide_eq_true hd) (List.getElem?_eq_getElem hd) rfl

/-- Settles O20: RESET performs one command frame and writes the address mode. -/
theorem resetSendsIncrementMode : Obligations.ResetSendsIncrementMode := by
  refine fun d s hb => ⟨fun v hv => ?_, fun hd => exec_eq_rejected hb (decide_eq_false hd.not_gt)⟩
  exact exec_eq_returned hb (decide_eq_true (lt_of_getElem? _ _ _ hv)) hv (applyEvents_writeFrame _ _ _ _ _)

/-- The mode-setting events of DISPLAY_AUTO: those of one command frame, exactly when the register records Fixed
(R123). -/
theorem modeEvents_increment (cfg : Config) (d : Nat) (v : Dev) : modeEvents cfg d .increment v =
    if v.am = .fixed then writeFrameEvents cfg d cfg.cmdDataInc [] else [] := by
  obtain ⟨am, don, pw⟩ := v
  cases am <;> rfl

/-- The mode-setting events of DISPLAY_FIXED: those of one command frame, exactly when the register records Increment
(R124). -/
theorem modeEvents_fixed (cfg : Config) (d : Nat) (v : Dev) : modeEvents cfg d .fixed v =
    if v.am = .increment then writeFrameEvents cfg d cfg.cmdDataFixed [] else [] := by
  obtain ⟨am, don, pw⟩ := v
  cases am <;> rfl

/-- The latches after a write frame with its mode-setting frame are those after the write frame (R90). -/
theorem applyEvents_modeEvents_framed (cfg : Config) (p : Pins) (d : Nat) (m : AddressMode) (v : Dev) (c : Byte)
    (vs : List Byte) : applyEvents p (modeEvents cfg d m v ++ writeFrameEvents cfg d c vs) =
      framed p d ((vs.getLastD c).getLsbD 7) := by
  rw [applyEvents_modeEvents_writeFrame, applyEvents_writeFrame, framed]

section Checks

variable {cfg : Config} {n d : Nat} {a : Byte}

/-- The checks of DISPLAY_AUTO (R123, R151). -/
theorem accepted_displayAuto_iff {bytes : List Byte} : accepted cfg n (.displayAuto d a bytes) = true ↔
    d < n ∧ a.toNat < cfg.addrCount ∧ a.toNat + bytes.length ≤ cfg.addrCount := by
  simp only [accepted, Bool.and_eq_true, decide_eq_true_eq, and_assoc]

/-- The checks of DISPLAY_FIXED (R124, R151). -/
theorem accepted_displayFixed_iff {b : Byte} : accepted cfg n (.displayFixed d a b) = true ↔
    d < n ∧ a.toNat < cfg.addrCount := by
  simp only [accepted, Bool.and_eq_true, decide_eq_true_eq]

/-- The checks of SET_MODE (R128, R151). -/
theorem accepted_setMode_iff {m : BitVec 2} : accepted cfg n (.setMode d m) = true ↔ cfg.hasMode = true ∧ d < n := by
  simp only [accepted, Bool.and_eq_true, decide_eq_true_eq]

end Checks

/-- Settles O21: an accepted DISPLAY_AUTO performs its mode-setting events and its write frame. -/
theorem displayAutoWritesInSequence : Obligations.DisplayAutoWritesInSequence := by
  refine fun d a bytes s hb => ⟨fun v hv ha hlen => ?_, fun h => exec_eq_rejected hb (Bool.eq_false_iff.mpr ?_)⟩
  · rw [← modeEvents_increment]
    exact exec_eq_returned hb (accepted_displayAuto_iff.mpr ⟨lt_of_getElem? _ _ _ hv, ha, hlen⟩) hv
      (applyEvents_modeEvents_framed _ _ _ _ _ _ _)
  · rw [Ne, accepted_displayAuto_iff]
    omega

/-- Settles O22: an accepted DISPLAY_FIXED performs its mode-setting events and its write frame of one byte. -/
theorem displayFixedWritesOneByte : Obligations.DisplayFixedWritesOneByte := by
  refine fun d a b s hb => ⟨fun v hv ha => ?_, fun h => exec_eq_rejected hb (Bool.eq_false_iff.mpr ?_)⟩
  · rw [← modeEvents_fixed]
    exact exec_eq_returned hb (accepted_displayFixed_iff.mpr ⟨lt_of_getElem? _ _ _ hv, ha⟩) hv
      (applyEvents_modeEvents_framed _ _ _ _ _ _ _)
  · rw [Ne, accepted_displayFixed_iff]
    omega

/-- Settles O23: the body of READ_KEY is one key read, whose bytes are those of the upcoming answers. -/
theorem readKeyReturnsTheSamples : Obligations.ReadKeyReturnsTheSamples := by
  refine fun d s hb => ⟨fun hd => ?_, fun hd => exec_eq_rejected hb (decide_eq_false hd.not_gt)⟩
  exact ⟨upcomingKeys s, rfl, upcomingBytes_length _ _ _, exec_of_readFrame hb (decide_eq_true hd) rfl⟩

/-- The stored width is the operand modulo 8 (R126). -/
theorem toNat_maskWidth (w : Byte) : (maskWidth w).toNat = w.toNat % 8 := by
  rw [maskWidth, BitVec.truncate_eq_setWidth, BitVec.toNat_setWidth, BitVec.toNat_and]
  exact (Nat.mod_eq_of_lt (Nat.lt_succ_of_le Nat.and_le_right)).trans (Nat.and_two_pow_sub_one_eq_mod _ 3)

/-- The width SET_PULSE sends is the one it stores (R126). -/
theorem zeroExtend_maskWidth : ∀ w : Byte, (maskWidth w).zeroExtend 8 = w &&& 7 := by decide +kernel

/-- Settles O24: SET_PULSE stores the masked width and performs one command frame of both display fields. -/
theorem setPulseStoresAndSends : Obligations.SetPulseStoresAndSends := by
  refine fun d w s hb => ⟨fun v hv => ?_, fun hd => exec_eq_rejected hb (decide_eq_false hd.not_gt)⟩
  refine ⟨encDisp s.cfg v.don (maskWidth w), maskWidth w, toNat_maskWidth w, ?_, ?_⟩
  · rw [← zeroExtend_maskWidth]
    rfl
  · exact exec_eq_returned hb (decide_eq_true (lt_of_getElem? _ _ _ hv)) hv (applyEvents_writeFrame _ _ _ _ _)

/-- Settles O25: SET_DISPLAY stores the flag and performs one command frame of both display fields. -/
theorem setDisplayStoresAndSends : Obligations.SetDisplayStoresAndSends := by
  refine fun d on s hb => ⟨fun v hv => ?_, fun hd => exec_eq_rejected hb (decide_eq_false hd.not_gt)⟩
  refine ⟨encDisp s.cfg on v.pw, ?_, ?_⟩
  · rw [BitVec.ofNat_toNat]
    rfl
  · exact exec_eq_returned hb (decide_eq_true (lt_of_getElem? _ _ _ hv)) hv (applyEvents_writeFrame _ _ _ _ _)

/-- Settles O26: the body of SET_MODE is one command frame of the mode byte. -/
theorem setModeSendsAndForgets : Obligations.SetModeSendsAndForgets := by
  refine fun d m s hb => ⟨fun hmode hd => ?_, fun h => exec_eq_rejected hb (Bool.eq_false_iff.mpr ?_)⟩
  · have hexec := exec_of_writeFrame hb (accepted_setMode_iff.mpr ⟨hmode, hd⟩) (c := encMode m) (p := []) rfl
    rwa [List.getLastD_nil, encMode_bit7, encMode_eq_ofNat] at hexec
  · rwa [Ne, accepted_setMode_iff, not_and_or, Bool.not_eq_true, not_lt]

/-! ### The address-mode state machine (R131) -/

/-- The registers of an accepted instruction's slot afterwards. -/
theorem getElem?_devs_instrState {i : Instr} {v : Dev} {s : State} (hv : s.devs[i.slot]? = some v) :
    (instrState i v s).devs[i.slot]? = some (instrDev v i) := by
  rw [instrState_devs, List.getElem?_set_self (lt_of_getElem? _ _ _ hv)]

/-- The address mode an accepted host operation leaves is that of the table of R131. -/
theorem instrDev_am (v : Dev) (i : Instr) : (instrDev v i).am = nextMode v.am i := by
  cases i <;> rfl

theorem sentModeCommands_append (cfg : Config) (fs gs : List Frame) :
    sentModeCommands cfg (fs ++ gs) = sentModeCommands cfg fs ++ sentModeCommands cfg gs := by
  rw [sentModeCommands, List.filterMap_append, List.filter_append, sentModeCommands, sentModeCommands]

/-- A frame whose command byte is neither of the two sets no mode. -/
theorem sentModeCommands_singleton_of_ne {cfg : Config} {c : Byte} (hinc : c ≠ cfg.cmdDataInc)
    (hfixed : c ≠ cfg.cmdDataFixed) (d : Nat) (p out : List Byte) : sentModeCommands cfg [⟨d, c :: p, out⟩] = [] := by
  simp [sentModeCommands, hinc, hfixed]

/-- A frame whose command byte is of another class than 01 sets no mode (R61). -/
theorem sentModeCommands_singleton_of_class {cfg : Config} (h : cfg.bytesOk = true) {c : Byte}
    (hc : c.extractLsb' 6 2 ≠ 1) (d : Nat) (p out : List Byte) : sentModeCommands cfg [⟨d, c :: p, out⟩] = [] := by
  obtain ⟨hinc, hfixed, -⟩ := ne_data_of_class h hc
  exact sentModeCommands_singleton_of_ne hinc hfixed d p out

/-- A mode-setting frame is seen as its command byte. -/
theorem sentModeCommands_modeByte (cfg : Config) (d : Nat) (m : AddressMode) :
    sentModeCommands cfg [⟨d, [modeByte cfg m], []⟩] = [modeByte cfg m] := by
  cases m <;> simp [sentModeCommands, modeByte, encDataInc, encDataFixed]

/-- The mode-setting frame carries the data instruction of its mode (R134). -/
theorem modeFrame_eq (cfg : Config) (d : Nat) (m : AddressMode) (v : Dev) :
    modeFrame cfg d m v = if v.am = m then [] else [⟨d, [modeByte cfg m], []⟩] := by
  cases m <;> rfl

/-- A write frame sends the mode-setting command of the frame before it, if there is one, and no other. -/
theorem sentModeCommands_modeFrame_encAddr {cfg : Config} (h : cfg.bytesOk = true) (d : Nat) (m : AddressMode)
    (v : Dev) (a : Byte) (p : List Byte) :
    sentModeCommands cfg (modeFrame cfg d m v ++ [⟨d, encAddr a :: p, []⟩]) =
      if v.am = m then [] else [modeByte cfg m] := by
  obtain ⟨-, hclass, -⟩ := encAddr_class a
  rw [sentModeCommands_append, sentModeCommands_singleton_of_class h (by rw [hclass]; decide), List.append_nil,
    modeFrame_eq]
  split
  · rfl
  · exact sentModeCommands_modeByte cfg d m

/-- The mode-setting commands of an accepted instruction are those of the table of R131. -/
theorem sentModeCommands_instrFrames {cfg : Config} (h : cfg.bytesOk = true) (v : Dev) (out : List Byte) (i : Instr) :
    sentModeCommands cfg (instrFrames cfg v out i) = tableModeCommands cfg v.am i := by
  obtain ⟨-, -, -, -, hincRead, hfixedRead, -⟩ := bytesOk_elim h
  cases i with
  | attach => rfl
  | mode d m | setMode d m =>
    obtain ⟨-, hclass, -⟩ := encMode_layout m
    exact sentModeCommands_singleton_of_class h (by rw [hclass]; decide) d [] []
  | disp d don pw =>
    obtain ⟨-, hclass, -⟩ := encDisp_layout h don pw
    exact sentModeCommands_singleton_of_class h (by rw [hclass]; decide) d [] []
  | setPulse d w =>
    obtain ⟨-, hclass, -⟩ := encDisp_layout h v.don (maskWidth w)
    exact sentModeCommands_singleton_of_class h (by rw [hclass]; decide) d [] []
  | setDisplay d on =>
    obtain ⟨-, hclass, -⟩ := encDisp_layout h on v.pw
    exact sentModeCommands_singleton_of_class h (by rw [hclass]; decide) d [] []
  | addr d a payload =>
    obtain ⟨-, hclass, -⟩ := encAddr_class (a.zeroExtend 8)
    exact sentModeCommands_singleton_of_class h (by rw [hclass]; decide) d payload []
  | dataInc d | reset d => exact sentModeCommands_modeByte cfg d .increment
  | dataFixed d => exact sentModeCommands_modeByte cfg d .fixed
  | dataRead d | readKey d => exact sentModeCommands_singleton_of_ne hincRead.symm hfixedRead.symm d [] out
  | displayAuto d a bytes =>
    rw [instrFrames, sentModeCommands_modeFrame_encAddr h, tableModeCommands]
    cases v.am <;> rfl
  | displayFixed d a b =>
    rw [instrFrames, sentModeCommands_modeFrame_encAddr h, tableModeCommands]
    cases v.am <;> rfl

/-- Settles O35: the registers and the frames of an accepted operation are read off the table; a rejected one has
neither. -/
theorem addressModeTable : Obligations.AddressModeTable := by
  intro i s v fs hbytes hb _ hv hfs
  refine ⟨fun ha => ?_, fun ha => ⟨_, exec_of_rejected hb ha, rfl, rfl⟩⟩
  refine ⟨_, _, instrFrames s.cfg v (upcomingKeys s) i, exec_of_accepted hb ha hv, getElem?_devs_instrState hv,
    instrDev_am v i, ?_, sentModeCommands_instrFrames hbytes v _ i⟩
  rw [instrState_trace]
  exact frames_append_instrEvents _ _ _ _ _ _ hfs

/-! ### The two display-control setters (R132) -/

section Setters

variable {d : Nat} {s : State} {v : Dev}

/-- What SET_PULSE leaves of an idle block, and what it sends (R126). -/
theorem exec_setPulse (w : Byte) (hb : s.busy = false) (hv : s.devs[d]? = some v) :
    ∃ t, exec (.setPulse d w) s = .next t ∧ t.cfg = s.cfg ∧ t.busy = false ∧
      t.devs = s.devs.set d { v with pw := maskWidth w } ∧ t.devs[d]? = some { v with pw := maskWidth w } ∧
      t.trace = s.trace ++ writeFrameEvents s.cfg d (encDisp s.cfg v.don (maskWidth w)) [] :=
  ⟨instrState (.setPulse d w) v s, exec_of_accepted hb (decide_eq_true (lt_of_getElem? _ _ _ hv)) hv, rfl, rfl, rfl,
    getElem?_devs_instrState (i := .setPulse d w) hv, rfl⟩

/-- What SET_DISPLAY leaves of an idle block, and what it sends (R127). -/
theorem exec_setDisplay (on : Bool) (hb : s.busy = false) (hv : s.devs[d]? = some v) :
    ∃ t, exec (.setDisplay d on) s = .next t ∧ t.cfg = s.cfg ∧ t.busy = false ∧
      t.devs = s.devs.set d { v with don := on } ∧ t.devs[d]? = some { v with don := on } ∧
      t.trace = s.trace ++ writeFrameEvents s.cfg d (encDisp s.cfg on v.pw) [] :=
  ⟨instrState (.setDisplay d on) v s, exec_of_accepted hb (decide_eq_true (lt_of_getElem? _ _ _ hv)) hv, rfl, rfl, rfl,
    getElem?_devs_instrState (i := .setDisplay d on) hv, rfl⟩

end Setters

/-- Settles O36: each setter sends both registers of the slot, the other one as it finds it, and after both setters both
are set; the third run of each order finds both registers at the values it would write. -/
theorem displaySettersCommute : Obligations.DisplaySettersCommute := by
  intro d w on s v hb hv
  obtain ⟨p, hp, hpcfg, hpb, hpdevs, hpv, hptrace⟩ := exec_setPulse w hb hv
  obtain ⟨pd, hpd, hpdcfg, hpdb, hpddevs, hpdv, hpdtrace⟩ := exec_setDisplay on hpb hpv
  obtain ⟨pdd, hpdd, -, -, hpdddevs, -, hpddtrace⟩ := exec_setDisplay on hpdb hpdv
  obtain ⟨q, hq, hqcfg, hqb, hqdevs, hqv, hqtrace⟩ := exec_setDisplay on hb hv
  obtain ⟨qp, hqp, hqpcfg, hqpb, hqpdevs, hqpv, hqptrace⟩ := exec_setPulse w hqb hqv
  obtain ⟨qpp, hqpp, -, -, hqppdevs, -, hqpptrace⟩ := exec_setPulse w hqpb hqpv
  rw [hpdevs, List.set_set] at hpddevs
  rw [hqdevs, List.set_set] at hqpdevs
  rw [hpddevs, List.set_set] at hpdddevs
  rw [hqpdevs, List.set_set] at hqppdevs
  rw [hpcfg] at hpdtrace
  rw [hqcfg] at hqptrace
  rw [hpdcfg, hpcfg] at hpddtrace
  rw [hqpcfg, hqcfg] at hqpptrace
  exact ⟨p, pd, pdd, q, qp, qpp, maskWidth w, _, toNat_maskWidth w, rfl, hp, hpd, hq, hqp, hpddevs,
    hqpdevs.trans hpddevs.symm, hptrace, hpdtrace, hqtrace, hqptrace, hpdd, hpdddevs.trans hpddevs.symm, hpddtrace,
    hqpp, hqppdevs.trans hqpdevs.symm, hqpptrace⟩

/-! ### What the frames of a display operation do to the chip (R50) -/

/-- A reader of traces reports a command the variant emits for the byte that encodes it (R67). -/
theorem traceVerdict_encodeCommand {cfg : Config} (h : cfg.bytesOk = true) {k : Command}
    (hk : commandEmitted cfg k = true) : traceVerdict cfg (encodeCommand cfg k) = .command k := by
  simp only [traceVerdict, decodeCommand_encodeCommand cfg k h, hk, if_true]

/-- A byte below 16 is a 4-bit address, and its address byte is that address encoded (R104). -/
theorem encAddr_eq_encodeCommand (cfg : Config) {a : Byte} (h : a.toNat < 16) :
    encAddr a = encodeCommand cfg (.addr (a.setWidth 4)) ∧ (a.setWidth 4).toNat = a.toNat := by
  have hlow : (a.setWidth 4).toNat = a.toNat := by
    rw [BitVec.toNat_setWidth, Nat.mod_eq_of_lt h]
  have hback : (a.setWidth 4).zeroExtend 8 = a := BitVec.eq_of_toNat_eq (by rw [toNat_address, hlow])
  rw [encodeCommand, hback]
  exact ⟨rfl, hlow⟩

/-- A mode-setting frame puts the chip into its mode (R101, R102). -/
theorem chipFrame_modeByte {cfg : Config} (h : cfg.bytesOk = true) (c : Chip) (d : Nat) (m : AddressMode) :
    chipFrame cfg c ⟨d, [modeByte cfg m], []⟩ = some { c with mode := some m, pointer := none } := by
  have hinc := traceVerdict_encodeCommand h (k := .dataInc) rfl
  have hfixed := traceVerdict_encodeCommand h (k := .dataFixed) rfl
  simp only [encodeCommand] at hinc hfixed
  cases m <;> simp only [chipFrame, modeByte, hinc, hfixed]

/-- A write frame stores its payload from its address on (R50, R104). -/
theorem chipFrame_encAddr {cfg : Config} (h : cfg.wf = true) {a : Byte} (ha : a.toNat < cfg.addrCount) (c : Chip)
    (d : Nat) (payload : List Byte) :
    chipFrame cfg c ⟨d, encAddr a :: payload, []⟩ = { c with pointer := some a.toNat }.storeAll payload := by
  obtain ⟨henc, hlow⟩ := encAddr_eq_encodeCommand cfg (ha.trans_le (addrCount_le_of_wf h))
  have hverdict := traceVerdict_encodeCommand (bytesOk_of_wf h) (k := .addr (a.setWidth 4))
    (by rw [commandEmitted, hlow, decide_eq_true ha])
  simp only [chipFrame, henc, hverdict, hlow]

/-- On a chip in the mode the shadow register records, the frames of a display operation store the payload in the mode
of the operation, from its address on: the mode-setting frame is suppressed only where the chip is in that mode. -/
theorem chipFrames_modeFrame_encAddr {cfg : Config} (h : cfg.wf = true) {a : Byte} (ha : a.toNat < cfg.addrCount)
    {c : Chip} {v : Dev} (hc : c.mode = some v.am) (d : Nat) (m : AddressMode) (payload : List Byte) :
    chipFrames cfg d c (modeFrame cfg d m v ++ [⟨d, encAddr a :: payload, []⟩]) =
      { c with mode := some m, pointer := some a.toNat }.storeAll payload := by
  rw [modeFrame_eq]
  split
  next hm =>
    subst hm
    simp [chipFrames, chipFrame_encAddr h ha, ← hc]
  next =>
    simp [chipFrames, chipFrame_modeByte (bytesOk_of_wf h), chipFrame_encAddr h ha]

/-- Settles O48: the payload is stored in auto-increment mode. -/
theorem displayAutoFillsTheDisplay : Obligations.DisplayAutoFillsTheDisplay := by
  intro d a bytes s v fs c hwf hb hv hfs ha hlen hdisplay hmode
  have hacc : accepted s.cfg s.nDev (.displayAuto d a bytes) = true :=
    accepted_displayAuto_iff.mpr ⟨lt_of_getElem? _ _ _ hv, ha, hlen⟩
  obtain ⟨display, -, hstored, hall⟩ := Chip.storeAll_increment
    (c := { c with mode := some .increment, pointer := some a.toNat }) bytes rfl rfl (hdisplay ▸ ha) (hdisplay ▸ hlen)
  refine ⟨_, instrFrames s.cfg v (upcomingKeys s) (.displayAuto d a bytes), _, exec_of_accepted hb hacc hv,
    (congrArg frames (instrState_trace _ v s)).trans (frames_append_instrEvents _ _ _ _ _ _ hfs),
    (chipFrames_modeFrame_encAddr hwf ha hmode d _ _).trans hall, rfl, ?_, rfl, rfl, rfl, hstored⟩
  simp only [hdisplay]

/-- Settles O49: the one byte is stored in fixed mode. -/
theorem displayFixedStoresOneByte : Obligations.DisplayFixedStoresOneByte := by
  intro d a b s v fs c hwf hb hv hfs ha hdisplay hmode
  have hacc : accepted s.cfg s.nDev (.displayFixed d a b) = true :=
    accepted_displayFixed_iff.mpr ⟨lt_of_getElem? _ _ _ hv, ha⟩
  have hlt : a.toNat < c.display.length := hdisplay ▸ ha
  have hall := Chip.storeAll_fixed (c := { c with mode := some .fixed, pointer := some a.toNat }) [b] rfl rfl hlt
  refine ⟨_, instrFrames s.cfg v (upcomingKeys s) (.displayFixed d a b), _, exec_of_accepted hb hacc hv,
    (congrArg frames (instrState_trace _ v s)).trans (frames_append_instrEvents _ _ _ _ _ _ hfs),
    (chipFrames_modeFrame_encAddr hwf ha hmode d _ _).trans hall, rfl, rfl, rfl, rfl, rfl, fun k => ?_⟩
  simp only [List.getLast?_singleton, List.getElem?_set, hlt, if_true, eq_comm]

end Sys2Proof.Machine

namespace Sys2Proof.Machine

/-! ### Errors (R154) -/

/-- Settles O29: the failed check is answered before the body runs, on the accepted block; the return clears `busy` and
`seqPos`, which the idle block had clear already. That the operation is a host operation is not needed. -/
theorem failedChecksChangeNothing : Obligations.FailedChecksChangeNothing := by
  intro i s _ hidle hpos hfailed
  exact exec_of_not_accepted hidle hpos hfailed

end Sys2Proof.Machine

namespace Sys2Proof.Machine

/-! ### The chip where it disagrees with the record, and how it is brought to agree (R173, R174) -/

/-- What an accepted instruction writes to the registers of its slot, and the frames it appends to the trace (R92). -/
theorem exists_exec_of_accepted {i : Instr} {s : State} {v : Dev} {fs : List Frame} (hb : s.busy = false)
    (ha : accepted s.cfg s.nDev i = true) (hv : s.devs[i.slot]? = some v) (hfs : frames s.trace = some fs) :
    ∃ t, exec i s = .next t ∧ t.devs[i.slot]? = some (instrDev v i) ∧
      frames t.trace = some (fs ++ instrFrames s.cfg v (upcomingKeys s) i) := by
  refine ⟨_, exec_of_accepted hb ha hv, getElem?_devs_instrState hv, ?_⟩
  rw [instrState_trace]
  exact frames_append_instrEvents _ _ _ _ _ _ hfs

/-- One frame to the chip's own slot has its effect on the chip. -/
theorem chipFrames_singleton (cfg : Config) (d : Nat) (c : Chip) (sent read : List Byte) :
    chipFrames cfg d c [⟨d, sent, read⟩] = chipFrame cfg c ⟨d, sent, read⟩ := by
  simp [chipFrames]

/-- A display-control frame sets the chip's display flag and pulse width (R105). -/
theorem chipFrame_encDisp {cfg : Config} (h : cfg.bytesOk = true) (c : Chip) (d : Nat) (don : Bool) (pw : BitVec 3) :
    chipFrame cfg c ⟨d, [encDisp cfg don pw], []⟩ = some { c with on := don, width := pw, pointer := none } := by
  have hdisp := traceVerdict_encodeCommand h (k := .disp don pw) rfl
  rw [encodeCommand] at hdisp
  simp only [chipFrame, hdisp]

/-- Where the register records the mode of a display operation, no frame sets that mode: the chip stores the payload in
whatever mode it is in (R174). -/
theorem chipFrames_modeFrame_suppressed {cfg : Config} (h : cfg.wf = true) {a : Byte} (ha : a.toNat < cfg.addrCount)
    {v : Dev} {m : AddressMode} (hv : v.am = m) (c : Chip) (d : Nat) (payload : List Byte) :
    chipFrames cfg d c (modeFrame cfg d m v ++ [⟨d, encAddr a :: payload, []⟩]) =
      { c with pointer := some a.toNat }.storeAll payload := by
  rw [modeFrame_eq, if_pos hv, List.nil_append, chipFrames_singleton, chipFrame_encAddr h ha]

/-- Settles O50: without its mode-setting frame a display operation stores in the chip's own mode, DISPLAY_AUTO in fixed
mode and DISPLAY_FIXED in auto-increment mode. -/
theorem disagreementMisplacesTheData : Obligations.DisagreementMisplacesTheData := by
  intro d a b bytes s v fs c hwf hb hv hfs ha hdisplay
  have hd := lt_of_getElem? _ _ _ hv
  have hlt : a.toNat < c.display.length := hdisplay ▸ ha
  refine ⟨fun hrecord hmode hlen => ?_, fun hrecord hmode => ?_⟩
  · obtain ⟨t, hexec, -, hframes⟩ := exists_exec_of_accepted (i := .displayAuto d a bytes) hb
      (accepted_displayAuto_iff.mpr ⟨hd, ha, hlen⟩) hv hfs
    have hall := Chip.storeAll_fixed (c := { c with pointer := some a.toNat }) bytes rfl hmode hlt
    refine ⟨t, _, _, hexec, hframes, (chipFrames_modeFrame_suppressed hwf ha hrecord c d bytes).trans hall, hmode, rfl,
      fun k => ?_⟩
    cases hlast : bytes.getLast? with
    | none => simp [List.getLast?_eq_none_iff.mp hlast]
    | some x =>
      have hne : bytes ≠ [] := by rintro rfl; cases hlast
      simp [List.getElem?_set, hlt, hne, eq_comm]
  · obtain ⟨t, hexec, -, hframes⟩ := exists_exec_of_accepted (i := .displayFixed d a b) hb
      (accepted_displayFixed_iff.mpr ⟨hd, ha⟩) hv hfs
    obtain ⟨display, -, hstored, hall⟩ :=
      Chip.storeAll_increment (c := { c with pointer := some a.toNat }) [b] rfl hmode hlt hlt
    refine ⟨t, _, _, hexec, hframes, (chipFrames_modeFrame_suppressed hwf ha hrecord c d [b]).trans hall, hmode,
      hdisplay ▸ rfl, fun k => ?_⟩
    have hk : a.toNat ≤ k ∧ k < a.toNat + [b].length ↔ k = a.toNat := by
      rw [List.length_singleton]; omega
    rw [hstored, if_congr hk rfl rfl]
    split
    next h => rw [h, Nat.sub_self]; rfl
    next => rfl

/-- Settles O51: RESET sends the mode it stores, and each setter sends the flag and the width as it leaves them. -/
theorem resetAndSettersBringAgreement : Obligations.ResetAndSettersBringAgreement := by
  intro d on w i s v fs c hbytes hb hv hfs hi
  have hacc : decide (d < s.nDev) = true := decide_eq_true (lt_of_getElem? _ _ _ hv)
  obtain rfl | rfl | rfl := hi
  · obtain ⟨t, hexec, hdev, hframes⟩ := exists_exec_of_accepted (i := .reset d) hb hacc hv hfs
    have hchip := chipFrame_modeByte hbytes c d .increment
    exact ⟨t, _, _, _, hexec, hdev, hframes, (chipFrames_singleton ..).trans hchip, rfl, fun _ => rfl, (absurd rfl ·)⟩
  · obtain ⟨t, hexec, hdev, hframes⟩ := exists_exec_of_accepted (i := .setDisplay d on) hb hacc hv hfs
    have hchip := chipFrame_encDisp hbytes c d on v.pw
    exact ⟨t, _, _, _, hexec, hdev, hframes, (chipFrames_singleton ..).trans hchip, rfl, nofun, fun _ => ⟨rfl, rfl⟩⟩
  · obtain ⟨t, hexec, hdev, hframes⟩ := exists_exec_of_accepted (i := .setPulse d w) hb hacc hv hfs
    have hchip := chipFrame_encDisp hbytes c d v.don (maskWidth w)
    exact ⟨t, _, _, _, hexec, hdev, hframes, (chipFrames_singleton ..).trans hchip, rfl, nofun, fun _ => ⟨rfl, rfl⟩⟩

end Sys2Proof.Machine

namespace Sys2Proof.Machine

/-! ### The block right after reset (R170) -/

section PowerOn

variable (cfg : Config) (n : Nat)

/-- A block is powered on with the number of slots it is built with. -/
theorem nDev_powerOn : (State.powerOn cfg n).nDev = n := List.length_replicate

/-- Right after reset the block is idle and every select latch is high (R27, R170). -/
theorem quiescent_powerOn : Quiescent (State.powerOn cfg n) := by
  rw [Quiescent, nDev_powerOn]
  exact ⟨rfl, rfl, rfl⟩

/-- The latches right after reset are those before the first event. -/
theorem linesLawful_powerOn : LinesLawful (State.powerOn cfg n) := by
  rw [LinesLawful, nDev_powerOn]
  exact ⟨rfl, rfl⟩

/-- The empty trace is no frame at all. -/
theorem framesLawful_powerOn : FramesLawful (State.powerOn cfg n) := ⟨[], frames_nil, nofun⟩

/-- The registers right after reset record that no frame has been sent. -/
theorem shadowsRecord_powerOn : ShadowsRecord (State.powerOn cfg n) :=
  ⟨[], frames_nil, fun _ _ h => List.eq_of_mem_replicate (List.mem_of_getElem? h)⟩

end PowerOn

/-- Settles O1: every latch and every slot's registers stand in the power-on state at their values of R170. -/
theorem resetSetsLatchesAndShadows : Obligations.ResetSetsLatchesAndShadows :=
  fun _ _ => ⟨_, rfl, rfl, rfl, List.length_replicate, List.length_replicate,
    fun _ hd => ⟨List.getElem?_replicate_of_lt hd, List.getElem?_replicate_of_lt hd⟩, rfl, rfl⟩

/-- Settles O2: the five invariants of a power-on state; no result has been returned yet. -/
theorem invariantsHoldAtReset : Obligations.InvariantsHoldAtReset :=
  ⟨rfl, fun cfg n => ⟨_, rfl, quiescent_powerOn cfg n, linesLawful_powerOn cfg n, framesLawful_powerOn cfg n, nofun,
    shadowsRecord_powerOn cfg n⟩⟩

end Sys2Proof.Machine

namespace Sys2Proof

/-! ### The request of an instruction and its decoding (R71, R72, R108) -/

/-- The operand byte of a Boolean is read back as that Boolean (R72). -/
theorem decodeBool_b2n (on : Bool) : decodeBool (b2n on) = some on := by
  cases on <;> decide

/-- The operand byte of a mode is read back as that mode (R72). -/
theorem decodeMode_zeroExtend : ∀ m : BitVec 2, decodeMode (m.zeroExtend 8) = some m := by
  decide

/-- A byte that is read as a Boolean is that Boolean's operand byte: a byte above 1 is not read (R72). -/
theorem b2n_of_decodeBool {b : Byte} {on : Bool} (h : decodeBool b = some on) : b2n on = b := by
  unfold decodeBool at h
  split_ifs at h with hoff hon <;> cases h
  · exact hoff.symm
  · exact hon.symm

/-- A mode byte is the mode, its class bits being zero (R63, R100). -/
theorem encMode_eq_zeroExtend (m : BitVec 2) : encMode m = m.zeroExtend 8 := BitVec.zero_or

/-- A byte that is read as a mode is that mode's operand byte: a byte above 3 is not read (R72). -/
theorem zeroExtend_of_decodeMode {b : Byte} {m : BitVec 2} (h : decodeMode b = some m) : m.zeroExtend 8 = b := by
  unfold decodeMode at h
  split_ifs at h with hb
  cases h
  rw [← encMode_eq_zeroExtend, encMode_extractLsb' hb]

/-- A command without a payload is accepted exactly with an empty one (R68). -/
theorem noPayload_eq_ok_iff {c : Byte} {payload : List Byte} {i j : Instr} :
    noPayload c payload i = .ok j ↔ payload = [] ∧ i = j := by
  unfold noPayload
  split_ifs with h <;> simp [h]

/-- SET_DISPLAY decodes as its operand byte does as a Boolean (R71, R72). -/
theorem decodeHost_setDisplay (d : Nat) (b : Byte) :
    decodeHost 6 d [b] = (decodeBool b).elim (.error (.operandRange 6)) fun on => .ok (.setDisplay d on) := by
  show (match decodeBool b with | some on => _ | none => _) = _
  cases decodeBool b <;> rfl

/-- SET_MODE decodes as its operand byte does as a mode (R71, R72). -/
theorem decodeHost_setMode (d : Nat) (b : Byte) :
    decodeHost 7 d [b] = (decodeMode b).elim (.error (.operandRange 7)) fun m => .ok (.setMode d m) := by
  show (match decodeMode b with | some m => _ | none => _) = _
  cases decodeMode b <;> rfl

/-- A host request that decodes is the encoding of the operation it decodes to: code by code of R71, with the operands
of its operation and no other number of them. -/
theorem encode_of_decodeHost (cfg : Config) {code : BitVec 3} {d : Nat} {operands : List Byte} {i : Instr}
    (h : decodeHost code d operands = .ok i) : encode cfg i = .host code d operands := by
  obtain rfl | rfl | rfl | rfl | rfl | rfl | rfl | rfl :
      code = 0 ∨ code = 1 ∨ code = 2 ∨ code = 3 ∨ code = 4 ∨ code = 5 ∨ code = 6 ∨ code = 7 := by
    clear h; revert code; decide
  · cases operands <;> cases h
    rfl
  · cases operands <;> cases h
    rfl
  · cases operands <;> cases h
    rfl
  · obtain _ | ⟨a, _ | ⟨b, _ | ⟨c, operands⟩⟩⟩ := operands <;> cases h
    rfl
  · cases operands <;> cases h
    rfl
  · obtain _ | ⟨w, _ | ⟨c, operands⟩⟩ := operands <;> cases h
    rfl
  · obtain _ | ⟨b, _ | ⟨c, operands⟩⟩ := operands
    · cases h
    · rw [decodeHost_setDisplay] at h
      cases hb : decodeBool b <;> rw [hb] at h <;> cases h
      rw [encode, b2n_of_decodeBool hb]
    · cases h
  · obtain _ | ⟨b, _ | ⟨c, operands⟩⟩ := operands
    · cases h
    · rw [decodeHost_setMode] at h
      cases hb : decodeMode b <;> rw [hb] at h <;> cases h
      rw [encode, zeroExtend_of_decodeMode hb]
    · cases h

/-- A wire request that decodes is the encoding of the wire command it decodes to (R68, R108). -/
theorem encode_of_decodeWire {cfg : Config} (hbytes : cfg.bytesOk = true) {c : Byte} {d : Nat} {payload : List Byte}
    {i : Instr} (h : decodeWire cfg d c payload = .ok i) : encode cfg i = .wire d c payload := by
  cases hdec : decodeCommand cfg c with
  | none => simp only [decodeWire, hdec, reduceCtorEq] at h
  | some k =>
    have hc := encodeCommand_of_decodeCommand hbytes hdec
    subst hc
    cases k with
    | addr a =>
      simp only [decodeWire, hdec] at h
      cases h
      rfl
    | _ =>
      simp only [decodeWire, hdec, noPayload_eq_ok_iff] at h
      obtain ⟨rfl, rfl⟩ := h
      rfl

/-- Settles O7: the command byte of a wire command decodes to its command, and the operand bytes of a host operation to
its operands. -/
theorem decodeInvertsEncode : Obligations.DecodeInvertsEncode := by
  intro cfg i h
  cases i with
  | mode | dataInc | dataFixed | dataRead | disp =>
    simp only [encode, decode, decodeWire, decodeCommand_encodeCommand cfg _ h, noPayload, if_true]
  | addr => simp only [encode, decode, decodeWire, decodeCommand_encodeCommand cfg _ h]
  | setDisplay d on => rw [encode, decode, decodeHost_setDisplay, decodeBool_b2n, Option.elim_some]
  | setMode d m => rw [encode, decode, decodeHost_setMode, decodeMode_zeroExtend, Option.elim_some]
  | _ => rfl

/-- Settles O8: level by level, a request that decodes carries the bytes the encoder gives. -/
theorem encodeInvertsDecode : Obligations.EncodeInvertsDecode := by
  intro cfg r i hbytes h
  cases r with
  | host code d operands => exact encode_of_decodeHost cfg h
  | wire d c payload => exact encode_of_decodeWire hbytes h

end Sys2Proof

namespace Sys2Proof.Machine

/-! ### The set of command bytes the block can emit, and the verdict of a reader of traces (R62, R67) -/

/-- The first four bytes are the mode bytes (R63). -/
theorem mem_modeBytes_iff : ∀ {c : Byte},
    c ∈ (List.range 4).map (BitVec.ofNat 8) ↔ ∃ m : BitVec 2, encMode m = c := by
  decide +kernel

/-- The sixteen bytes from the display class on are the display-control bytes (R65). -/
theorem mem_dispBytes_iff {cfg : Config} (h : cfg.bytesOk = true) {c : Byte} :
    c ∈ (List.range 16).map (fun k => Config.classDisp + BitVec.ofNat 8 k) ↔
      ∃ don pw, encDisp cfg don pw = c := by
  obtain ⟨-, -, -, -, -, -, hbit⟩ := bytesOk_elim h
  simp only [encDisp, hbit]
  clear h hbit
  revert c
  decide +kernel

/-- A 4-bit address is below sixteen as a byte too (R41). -/
theorem toNat_address_lt (a : BitVec 4) : (a.zeroExtend 8).toNat < 16 := toNat_address a ▸ a.isLt

/-- The byte of an address below sixteen is its class and the address added: no bit is in both (R66, R104). -/
theorem encAddr_eq_add : ∀ {a : Byte}, a.toNat < 16 → encAddr a = 0xC0 + a := by
  decide +kernel

/-- The first bytes from the address class on, sixteen or fewer, are the address bytes below their number (R66). -/
theorem mem_addrBytes_iff {n : Nat} (h : n ≤ 16) {c : Byte} :
    c ∈ (List.range n).map (fun k => Config.classAddr + BitVec.ofNat 8 k) ↔
      ∃ a : BitVec 4, a.toNat < n ∧ encAddr (a.zeroExtend 8) = c := by
  have hadd (a : BitVec 4) : encAddr (a.zeroExtend 8) = Config.classAddr + BitVec.ofNat 8 a.toNat := by
    rw [encAddr_eq_add (toNat_address_lt a), BitVec.ofNat_toNat, Config.classAddr]
  simp only [List.mem_map, List.mem_range, hadd]
  constructor
  · rintro ⟨k, hk, hc⟩
    have hlow : (BitVec.ofNat 4 k).toNat = k := Nat.mod_eq_of_lt (hk.trans_le h)
    exact ⟨BitVec.ofNat 4 k, by rwa [hlow], by rwa [hlow]⟩
  · rintro ⟨a, ha, hc⟩
    exact ⟨a.toNat, ha, hc⟩

/-- The set of R62 holds exactly the encodings of the commands the variant emits. -/
theorem mem_emittedCommands_iff {cfg : Config} (h : cfg.wf = true) {c : Byte} :
    c ∈ emittedCommands cfg ↔ ∃ k, commandEmitted cfg k = true ∧ encodeCommand cfg k = c := by
  simp only [emittedCommands, List.mem_append, mem_dispBytes_iff (bytesOk_of_wf h),
    mem_addrBytes_iff (addrCount_le_of_wf h)]
  constructor
  · rintro (((hmode | hdata) | ⟨don, pw, rfl⟩) | ⟨a, ha, rfl⟩)
    · split_ifs at hmode with hhas
      · obtain ⟨m, rfl⟩ := mem_modeBytes_iff.mp hmode
        exact ⟨.mode m, hhas, rfl⟩
      · cases hmode
    · simp only [List.mem_cons, List.not_mem_nil, or_false] at hdata
      obtain rfl | rfl | rfl := hdata
      · exact ⟨.dataInc, rfl, rfl⟩
      · exact ⟨.dataFixed, rfl, rfl⟩
      · exact ⟨.dataRead, rfl, rfl⟩
    · exact ⟨.disp don pw, rfl, rfl⟩
    · exact ⟨.addr a, decide_eq_true ha, rfl⟩
  · rintro ⟨k, hk, rfl⟩
    cases k with
    | mode m =>
      refine .inl (.inl (.inl ?_))
      rw [if_pos (show cfg.hasMode = true from hk)]
      exact mem_modeBytes_iff.mpr ⟨m, rfl⟩
    | dataInc | dataFixed | dataRead =>
      refine .inl (.inl (.inr ?_))
      simp [encodeCommand, encDataInc, encDataFixed, encDataRead]
    | addr a => exact .inr ⟨a, of_decide_eq_true hk, rfl⟩
    | disp don pw => exact .inl (.inr ⟨don, pw, rfl⟩)

/-- Settles O10: the set holds the encodings of the emitted commands, and the verdict asks of a byte that decodes
whether its command is emitted. -/
theorem traceVerdictsFollowTheEmittedSet : Obligations.TraceVerdictsFollowTheEmittedSet := by
  intro cfg c h
  have hbytes := bytesOk_of_wf h
  rw [mem_emittedCommands_iff h]
  refine ⟨fun hout => ?_, ?_⟩
  · cases hdec : decodeCommand cfg c with
    | none => simp only [traceVerdict, hdec]
    | some k =>
      have hk : ¬ commandEmitted cfg k = true :=
        fun hk => hout ⟨k, hk, encodeCommand_of_decodeCommand hbytes hdec⟩
      simp only [traceVerdict, hdec, if_neg hk]
  · rintro ⟨k, hk, rfl⟩
    exact ⟨k, traceVerdict_encodeCommand hbytes hk, rfl⟩

/-! ### Every step keeps the frames lawful (R47, R62, R68) -/

/-- A command frame is one the block may send when the variant emits its command, any but the one that begins a read
frame; the command frame of an address is a write frame with no payload. -/
theorem lawful_commandFrame {cfg : Config} (h : cfg.wf = true) {n d : Nat} (hd : d < n) {k : Command}
    (hk : commandEmitted cfg k = true) (hread : k ≠ .dataRead) :
    Frame.lawful cfg n ⟨d, [encodeCommand cfg k], []⟩ = true := by
  have hmem := (mem_emittedCommands_iff h).mpr ⟨k, hk, rfl⟩
  simp only [Frame.lawful, hd, hmem, decodeCommand_encodeCommand cfg k (bytesOk_of_wf h)]
  cases k with
  | dataRead => exact absurd rfl hread
  | addr a => simpa using (of_decide_eq_true hk).le
  | _ => rfl

/-- A read frame is one the block may send when it reads `KEY_BYTES` bytes (R42, R88). -/
theorem lawful_readFrame {cfg : Config} (h : cfg.wf = true) {n d : Nat} (hd : d < n) {out : List Byte}
    (hout : out.length = cfg.keyBytes) : Frame.lawful cfg n ⟨d, [encDataRead cfg], out⟩ = true := by
  have hmem := (mem_emittedCommands_iff h).mpr ⟨.dataRead, rfl, rfl⟩
  have hdec := decodeCommand_encodeCommand cfg .dataRead (bytesOk_of_wf h)
  simp only [encodeCommand] at hmem hdec
  simp [Frame.lawful, hd, hmem, hdec, hout]

/-- A write frame is one the block may send when its payload lies within the address space (R46, R47). -/
theorem lawful_writeFrame {cfg : Config} (h : cfg.wf = true) {n d : Nat} (hd : d < n) {a : Byte} {payload : List Byte}
    (ha : a.toNat < cfg.addrCount) (hlen : a.toNat + payload.length ≤ cfg.addrCount) :
    Frame.lawful cfg n ⟨d, encAddr a :: payload, []⟩ = true := by
  obtain ⟨henc, hlow⟩ := encAddr_eq_encodeCommand cfg (ha.trans_le (addrCount_le_of_wf h))
  have hemitted : commandEmitted cfg (.addr (a.setWidth 4)) = true := by
    rw [commandEmitted, hlow, decide_eq_true ha]
  have hmem := (mem_emittedCommands_iff h).mpr ⟨_, hemitted, rfl⟩
  simp [Frame.lawful, hd, henc, hmem, decodeCommand_encodeCommand cfg _ (bytesOk_of_wf h), hlow, hlen]

/-- A mode-setting frame, where there is one, is one the block may send. -/
theorem lawful_of_mem_modeFrame {cfg : Config} (h : cfg.wf = true) {n d : Nat} (hd : d < n) {m : AddressMode} {v : Dev}
    {f : Frame} (hf : f ∈ modeFrame cfg d m v) : f.lawful cfg n = true := by
  rw [modeFrame_eq] at hf
  split_ifs at hf
  · cases hf
  · rw [List.mem_singleton.mp hf]
    cases m
    · exact lawful_commandFrame h hd (k := .dataInc) rfl nofun
    · exact lawful_commandFrame h hd (k := .dataFixed) rfl nofun

/-- The frames of an accepted instruction are ones the block may send. -/
theorem lawful_of_mem_instrFrames {cfg : Config} (h : cfg.wf = true) {n : Nat} {i : Instr}
    (ha : accepted cfg n i = true) {v : Dev} {out : List Byte} (hout : out.length = cfg.keyBytes) {f : Frame}
    (hf : f ∈ instrFrames cfg v out i) : f.lawful cfg n = true := by
  have hd := slot_lt_of_accepted _ _ i ha
  cases i <;> simp only [instrFrames, List.mem_append, List.mem_singleton, List.not_mem_nil] at hf
  case mode d m | setMode d m =>
    obtain ⟨hmode, -⟩ := (Bool.and_eq_true _ _).mp ha
    exact hf ▸ lawful_commandFrame h hd (k := .mode m) hmode nofun
  case dataInc d | reset d => exact hf ▸ lawful_commandFrame h hd (k := .dataInc) rfl nofun
  case dataFixed d => exact hf ▸ lawful_commandFrame h hd (k := .dataFixed) rfl nofun
  case dataRead d | readKey d => exact hf ▸ lawful_readFrame h hd hout
  case disp d don pw => exact hf ▸ lawful_commandFrame h hd (k := .disp don pw) rfl nofun
  case setPulse d w => exact hf ▸ lawful_commandFrame h hd (k := .disp v.don (maskWidth w)) rfl nofun
  case setDisplay d on => exact hf ▸ lawful_commandFrame h hd (k := .disp on v.pw) rfl nofun
  case addr d a payload =>
    simp only [accepted, Bool.and_eq_true, decide_eq_true_eq, ← toNat_address a] at ha
    obtain ⟨⟨-, haddr⟩, hlen⟩ := ha
    exact hf ▸ lawful_writeFrame h hd haddr hlen
  case displayAuto d a bytes =>
    obtain ⟨-, haddr, hlen⟩ := accepted_displayAuto_iff.mp ha
    exact hf.elim (lawful_of_mem_modeFrame h hd) (· ▸ lawful_writeFrame h hd haddr hlen)
  case displayFixed d a b =>
    obtain ⟨-, haddr⟩ := accepted_displayFixed_iff.mp ha
    exact hf.elim (lawful_of_mem_modeFrame h hd) (· ▸ lawful_writeFrame h hd haddr haddr)

/-- An instruction that has a next state keeps the frames of the trace lawful: a rejected one adds none. -/
theorem exec_keeps_framesLawful {i : Instr} {s t : State} (hw : s.cfg.wf = true) (hs : FramesLawful s)
    (h : exec i s = .next t) : FramesLawful t := by
  obtain ⟨fs, hfs, hlawful⟩ := hs
  obtain ⟨hcfg, hn⟩ := exec_keeps_configuration h
  rw [FramesLawful, hcfg, hn]
  obtain ⟨-, ⟨-, rfl⟩ | ⟨ha, v, -, rfl⟩⟩ := exec_next_cases h
  · exact ⟨fs, hfs, hlawful⟩
  · refine ⟨fs ++ instrFrames s.cfg v (upcomingKeys s) i, ?_, fun f hf => ?_⟩
    · rw [instrState_trace]
      exact frames_append_instrEvents _ _ _ _ _ _ hfs
    · exact (List.mem_append.mp hf).elim (hlawful f)
        (lawful_of_mem_instrFrames hw ha (upcomingBytes_length _ _ _))

/-- Settles O44: an idle step adds no frame, and an instruction adds lawful ones. -/
theorem stepKeepsTheFramesLawful : Obligations.StepKeepsTheFramesLawful := by
  intro s t hs h
  obtain ⟨hw, -, rfl | ⟨i, rest, hexec⟩⟩ := step_next_cases h
  · exact hs
  · exact exec_keeps_framesLawful (s := { s with port := rest }) hw hs hexec

/-! ### What every instruction returns and sends (R134, R154, R158) -/

/-- Settles O30: the failed check of a wire command is answered as that of any instruction. -/
theorem wireCommandsCheckTheirOperands : Obligations.WireCommandsCheckTheirOperands := by
  intro i s _ hidle hpos hfailed
  exact exec_of_not_accepted hidle hpos hfailed

/-- An accepted instruction returns no error. -/
theorem instrResult_ne_error (out : List Byte) (i : Instr) (kind : ErrorKind) : instrResult out i ≠ .error kind := by
  cases i <;> nofun

/-- Settles O32: a rejected instruction returns `InvalidArgument`, an accepted one its result, which is no error. -/
theorem everyInstructionReturns : Obligations.EveryInstructionReturns := by
  intro i s hb
  obtain ⟨hbusy, -⟩ | ⟨-, ha, hexec⟩ | ⟨-, ha, v, -, hexec⟩ := exec_cases i s
  · rw [hb] at hbusy; cases hbusy
  · refine ⟨_, .error .invalidArgument, hexec, rfl, rfl, rfl, iff_of_true ha rfl, fun kind hkind => ?_⟩
    cases hkind; rfl
  · have hok := instrResult_ne_error (upcomingKeys s) i
    exact ⟨_, _, hexec, instrState_results i v s, instrState_busy i v s, instrState_seqPos i v s,
      iff_of_false (by rw [ha]; nofun) (hok _), fun kind hkind => absurd hkind (hok kind)⟩

/-- The frames of an accepted instruction are those R134 lists. -/
theorem instrFrames_eq_summaryFrames {cfg : Config} (h : cfg.wf = true) {n : Nat} {i : Instr}
    (ha : accepted cfg n i = true) (v : Dev) (out : List Byte) :
    instrFrames cfg v out i = summaryFrames cfg v out i := by
  have h16 := addrCount_le_of_wf h
  cases i with
  | mode d m | setMode d m => rw [instrFrames, encMode_eq_zeroExtend, summaryFrames]
  | addr d a payload =>
    rw [instrFrames, encAddr_eq_add (toNat_address_lt a), summaryFrames]
  | displayAuto d a bytes =>
    obtain ⟨-, haddr, -⟩ := accepted_displayAuto_iff.mp ha
    rw [instrFrames, encAddr_eq_add (haddr.trans_le h16), summaryFrames]
  | displayFixed d a b =>
    obtain ⟨-, haddr⟩ := accepted_displayFixed_iff.mp ha
    rw [instrFrames, encAddr_eq_add (haddr.trans_le h16), summaryFrames]
  | _ => rfl

/-- Settles O34: the events of an accepted instruction are read as its frames, with the bytes R134 gives. -/
theorem frameSummary : Obligations.FrameSummary := by
  intro i s v fs hw hb hv ha hfs
  obtain ⟨t, hexec, -, hframes⟩ := exists_exec_of_accepted hb ha hv hfs
  exact ⟨t, hexec, instrFrames_eq_summaryFrames hw ha v _ ▸ hframes⟩

/-! ### Words and bytes with the defaults (R63 to R66, R71, R100 to R105) -/

/-- Settles O6: each request is read by the decoder. -/
theorem tableWordsDecode : Obligations.TableWordsDecode :=
  ⟨rfl, rfl, rfl, rfl, rfl, rfl, rfl, rfl, rfl, by decide +kernel⟩

/-- A display-control byte with the flag in bit 3 is its class, eight if the flag is set, and the width (R65, R105). -/
theorem toNat_encDisp_tm1638 : ∀ (don : Bool) (pw : BitVec 3),
    (encDisp Config.tm1638 don pw).toNat = 0x80 + 8 * don.toNat + pw.toNat := by
  decide

/-- Settles O12: no two parts of a command byte overlap, so or-ing them adds them. -/
theorem commandBytesHaveTheirValues : Obligations.CommandBytesHaveTheirValues := by
  refine fun m a don pw => ⟨?_, fun ha => ?_, toNat_encDisp_tm1638 don pw, rfl, rfl, rfl⟩
  · rw [encMode_eq_ofNat, BitVec.ofNat_toNat, BitVec.toNat_setWidth]
    omega
  · obtain ⟨henc, hlow⟩ := encAddr_eq_encodeCommand Config.tm1638 ha
    rw [henc, encodeCommand, toNat_encAddr, hlow]

end Sys2Proof.Machine
